-- ==== Sys2Proof/Word.lean ====
section
/-! DEFINITION. The two word types of the rust2 VM core and the plainest facts about them. -/

namespace Sys2Proof

/-- A register value: an unsigned 32-bit integer (`XLEN` of 00_scope.md rule R6, rule R9). -/
abbrev Word := BitVec 32

/-- The addressable unit of the arena and of the sink (20_memory.md rule R51). -/
abbrev Byte := BitVec 8

end Sys2Proof
end

