-- ==== Sys2Proof/Config.lean ====
section
/-! DEFINITION. The parameters of 00_scope.md rule R6, each under its own name. All are fixed by the
spec, so there is no implementation choice here, and the spec leaves no value of the core undefined
(93_implementation_defined.md: "No behaviour of the core is `undefined` in the source"), so there is no
opaque free value either. What the spec calls a draw, the sink's answer, is an input that State holds
(notes/assumptions/1.md). The literals are UNVERIFIED against the repository (notes/assumptions/7.md);
the opcode numbers and the lengths stand in Decode.lean. -/

namespace Sys2Proof.Config

/-- `NREGS`: the number of registers, indices 0 to 15 (rule R6, rule R20). -/
abbrev nregs : Nat := 16

/-- `MEM_SIZE`: the bytes in the arena, offsets 0 to 4095 (rule R6, rule R29). -/
abbrev memSize : Nat := 4096

/-- `WINDOW`: the bytes in the fetch window, which is also `MAX_ILEN` (rule R6). -/
abbrev window : Nat := 4

/-- `DATA_WIDTH`: the bytes moved by every load and every store (rule R6, rule R61). -/
abbrev dataWidth : Nat := 4

/-- The number of values of a register-index field, a whole byte (`REGFIELD_BITS` of rule R6). -/
abbrev fieldValues : Nat := 256

end Sys2Proof.Config
end

