-- ==== Sys2Proof/Syntax.lean ====
section
/-! DEFINITION. The eight instructions of the ISA, one constructor per row of spec/opcode_table.json. -/

namespace Sys2Proof

/-- An instruction of the rust2 VM core (30_encoding.md rule R81), its operands in encoding order
(rule R87). A register-index field is the value of a whole operand byte: 0 to 15 name registers, 16 to 255
decode and then fail (rule R78); a value of 256 or more fits no byte and is refused by
`Instr.wellFormed`. -/
inductive Instr where
  /-- move-if, opcode 1 (rule R140): destination, source, condition. -/
  | movif (rd rs rc : Nat)
  /-- store, opcode 2 (rule R160): address register, data register. -/
  | store (ri rj : Nat)
  /-- load, opcode 3 (rule R161): destination, address register. -/
  | load (ri rj : Nat)
  /-- load-immediate, opcode 4 (rule R141): destination and the 16 bits `{hi, lo}`. -/
  | li (ri : Nat) (imm : BitVec 16)
  /-- subtract, opcode 5 (rule R142): destination, minuend, subtrahend. -/
  | sub (rd ra rb : Nat)
  /-- output-char, opcode 6 (rule R180). -/
  | outc (ri : Nat)
  /-- exit, opcode 7 (rule R181). -/
  | exit
  /-- output-number, opcode 8 (rule R182). -/
  | outn (ri : Nat)
  deriving DecidableEq, Repr

end Sys2Proof
end

