-- ==== Sys2Proof/WellFormed.lean ====
section
/-! DEFINITION. Which instructions have an encoding: every register-index field fits its byte
(30_encoding.md rule R78). A field of 16 to 255 is well formed: it decodes, and the step then fails. -/

namespace Sys2Proof

/-- A register-index field fits the whole byte the encoding gives it (rule R78). -/
def fieldFits (f : Nat) : Bool := decide (f < Config.fieldValues)

/-- The instruction has an encoding. The immediate's 16 bits always fit (rule R75). -/
def Instr.wellFormed : Instr → Bool
  | .movif rd rs rc => fieldFits rd && fieldFits rs && fieldFits rc
  | .store ri rj => fieldFits ri && fieldFits rj
  | .load ri rj => fieldFits ri && fieldFits rj
  | .li ri _ => fieldFits ri
  | .sub rd ra rb => fieldFits rd && fieldFits ra && fieldFits rb
  | .outc ri => fieldFits ri
  | .exit => true
  | .outn ri => fieldFits ri

end Sys2Proof
end

