-- ==== Sys2Proof/Decode.lean ====
section
/-! DEFINITION. The opcode map, the decoder of a 32-bit fetch window, and the encoder, from
30_encoding.md. -/

namespace Sys2Proof

/-! ### Opcodes, formats and lengths -/

/-- The eight defined opcodes (rule R81). -/
inductive Opcode where
  | movif | store | load | li | sub | outc | exit | outn
  deriving DecidableEq, Repr

/-- The five operand layouts (rules R73 to R77). -/
inductive Format where
  /-- Three register-index fields, in bytes 1, 2 and 3 (rule R73). -/
  | rrr
  /-- Two register-index fields, in bytes 1 and 2 (rule R74). -/
  | rr
  /-- A register-index field in byte 1, the immediate's low byte in 2 and high byte in 3 (rule R75). -/
  | ri
  /-- One register-index field, in byte 1 (rule R76). -/
  | r
  /-- No operand (rule R77). -/
  | n
  deriving DecidableEq, Repr

namespace Opcode

/-- The opcode byte (rule R81). -/
def byte : Opcode → Byte
  | .movif => 0x01
  | .store => 0x02
  | .load => 0x03
  | .li => 0x04
  | .sub => 0x05
  | .outc => 0x06
  | .exit => 0x07
  | .outn => 0x08

/-- The opcode's format (rules R73 to R77). -/
def format : Opcode → Format
  | .movif => .rrr
  | .store => .rr
  | .load => .rr
  | .li => .ri
  | .sub => .rrr
  | .outc => .r
  | .exit => .n
  | .outn => .r

/-- The length in bytes, which is also the IP advance: a function of the opcode alone (rule R72).
UNVERIFIED for opcode 8, where the source's own example disagrees with its table
(90_conflicts.md C1; notes/assumptions/8.md). -/
def len : Opcode → Nat
  | .movif => 4
  | .store => 3
  | .load => 3
  | .li => 4
  | .sub => 4
  | .outc => 2
  | .exit => 1
  | .outn => 2

/-- The opcode an opcode byte selects, none for the illegal bytes 0x00 and 0x09 to 0xFF (rule R83). -/
def ofByte (b : Byte) : Option Opcode :=
  if b = byte .movif then some .movif
  else if b = byte .store then some .store
  else if b = byte .load then some .load
  else if b = byte .li then some .li
  else if b = byte .sub then some .sub
  else if b = byte .outc then some .outc
  else if b = byte .exit then some .exit
  else if b = byte .outn then some .outn
  else none

end Opcode

namespace Instr

/-- The opcode of an instruction. -/
def opcode : Instr → Opcode
  | .movif _ _ _ => .movif
  | .store _ _ => .store
  | .load _ _ => .load
  | .li _ _ => .li
  | .sub _ _ _ => .sub
  | .outc _ => .outc
  | .exit => .exit
  | .outn _ => .outn

/-- The length of an instruction in bytes (rule R72). -/
def len (i : Instr) : Nat := i.opcode.len

/-- The register-index fields the bounds checker looks at: `regfields` of 40_step.md rule R101. -/
def regFields : Instr → List Nat
  | .movif rd rs rc => [rd, rs, rc]
  | .store ri rj => [ri, rj]
  | .load ri rj => [ri, rj]
  | .li ri _ => [ri]
  | .sub rd ra rb => [rd, ra, rb]
  | .outc ri => [ri]
  | .exit => []
  | .outn ri => [ri]

end Instr

/-! ### The fetch window -/

/-- Byte `k` of a 32-bit value, byte 0 the least significant: `op`, `B1`, `B2`, `B3` of a window
(rule R71), and the byte a store puts at offset `k` (20_memory.md rule R54). -/
def byteOf (w : Word) (k : Nat) : Byte := w.extractLsb' (8 * k) 8

/-- The 32-bit value of four bytes in address order, little-endian (20_memory.md rules R54, R55). -/
def wordOfBytes (b0 b1 b2 b3 : Byte) : Word := b3 ++ b2 ++ b1 ++ b0

/-- The window over a byte list in address order: its first four bytes, zero where the list has ended
(DESIGN CHOICE, notes/assumptions/16.md). -/
def windowOf (bs : List Byte) : Word :=
  wordOfBytes (bs.getD 0 0) (bs.getD 1 0) (bs.getD 2 0) (bs.getD 3 0)

/-! ### Decoder -/

/-- Why a window is no instruction. -/
inductive Reject where
  /-- The opcode byte is 0x00 or 0x09 to 0xFF (rule R83). -/
  | illegalOpcode (op : Byte)
  deriving DecidableEq, Repr

/-- The decoder (40_step.md rule R105): it chooses by `W[7:0]` alone and then takes the fields from the
fixed bytes of the opcode's format. Total on every window (rule R84). A register field is the whole byte,
never masked (rule R78). -/
def decode (w : Word) : Except Reject Instr :=
  let b1 := (byteOf w 1).toNat
  let b2 := (byteOf w 2).toNat
  let b3 := (byteOf w 3).toNat
  match Opcode.ofByte (byteOf w 0) with
  | none => .error (.illegalOpcode (byteOf w 0))
  | some .movif => .ok (.movif b1 b2 b3)
  | some .store => .ok (.store b1 b2)
  | some .load => .ok (.load b1 b2)
  | some .li => .ok (.li b1 (byteOf w 3 ++ byteOf w 2))
  | some .sub => .ok (.sub b1 b2 b3)
  | some .outc => .ok (.outc b1)
  | some .exit => .ok .exit
  | some .outn => .ok (.outn b1)

/-- The decoder on any byte list, taken as the bytes at the instruction pointer. -/
def decodeBytes (bs : List Byte) : Except Reject Instr := decode (windowOf bs)

/-! ### Encoder -/

/-- The byte of a register-index field (rule R78). -/
def fieldByte (f : Nat) : Byte := BitVec.ofNat 8 f

/-- The bytes of an instruction in address order (rules R73 to R77, rule R87). -/
def encode : Instr → List Byte
  | .movif rd rs rc => [Opcode.byte .movif, fieldByte rd, fieldByte rs, fieldByte rc]
  | .store ri rj => [Opcode.byte .store, fieldByte ri, fieldByte rj]
  | .load ri rj => [Opcode.byte .load, fieldByte ri, fieldByte rj]
  | .li ri imm => [Opcode.byte .li, fieldByte ri, imm.extractLsb' 0 8, imm.extractLsb' 8 8]
  | .sub rd ra rb => [Opcode.byte .sub, fieldByte rd, fieldByte ra, fieldByte rb]
  | .outc ri => [Opcode.byte .outc, fieldByte ri]
  | .exit => [Opcode.byte .exit]
  | .outn ri => [Opcode.byte .outn, fieldByte ri]

/-! ### The host's view of the decoder -/

/-- The window of a table word: its low `nbits` bits, every higher bit 0. The table numbers bits as the
window does, the first byte lowest (rule R55), so no byte moves. -/
def tableWindow (nbits w : Nat) : Word := BitVec.ofNat 32 (w % 2 ^ nbits)

/-- The instruction the decoder reads from a table word. -/
def decodeTableWord (nbits w : Nat) : Option Instr := (decode (tableWindow nbits w)).toOption

end Sys2Proof
end

