-- ==== Sys2Proof/Machine/State.lean ====
section
/-! DEFINITION. The state of the machine as plain data, the errors and the state after reset.
The architectural state is `regs` and `mem` and nothing else (10_state.md rule R29). `sink` and `answered`
are the MODEL'S OWN fields: they are what stands on the other side of the core's SINK and STEP ports
(notes/assumptions/1.md and 3.md), since a step of the host's interface takes and gives one state. -/

namespace Sys2Proof.Machine

/-! ### The arena -/

/-- The arena: the bytes that are not 0, by offset, in strictly rising order. An offset that is not listed
holds `unlisted`. -/
abbrev Memory := List Host.Cell

/-- What an unlisted offset of the arena reads as: 0, the value construction gives every byte past the
image (70_reset_and_hazards.md rule R240). -/
def unlisted : Byte := 0

/-- The canonical form: offsets strictly rise, each lies in the arena, and no entry holds what an unlisted
offset reads as. Equal arenas are then equal lists. -/
abbrev Memory.wf (m : Memory) : Prop :=
  m.Pairwise (fun c d => c.1 < d.1) ∧ ∀ c ∈ m, c.1 < Config.memSize ∧ c.2 ≠ unlisted

/-! ### The sink, outside the core -/

/-- The sink's answer to one transaction (43_output_exit.md rule R183), an input of the step
(40_step.md rule R116). -/
inductive SinkAnswer where
  /-- `OK`: the sink has taken all the bytes. -/
  | ok
  /-- `FAIL`: the sink has taken the first `k` bytes (all of them if there are fewer than `k`;
  DESIGN CHOICE, notes/assumptions/15.md). -/
  | fail (k : Nat)
  /-- No answer ever comes (92_eei_decisions.md D10). DESIGN CHOICE, notes/assumptions/2.md. -/
  | silent
  deriving DecidableEq, Repr

/-- The byte sink as the environment of a run: what it has taken, and what it will answer. It is not part
of the block (10_state.md rule R31). DESIGN CHOICE notes/assumptions/1.md. -/
structure Sink where
  /-- Every byte the sink has taken, oldest first: the observable of a run (rule R31). -/
  taken : List Byte
  /-- The answers to the next transactions, the next one first. -/
  answers : List SinkAnswer
  /-- The answer to every transaction after those. -/
  thereafter : SinkAnswer
  deriving DecidableEq, Repr

/-! ### Outcomes -/

/-- The outcome of a step that did not fail (40_step.md rule R112). -/
inductive StepAnswer where
  /-- `Continue`. -/
  | continued
  /-- `Terminated`: opcode 7 executed. -/
  | terminated
  deriving DecidableEq, Repr

/-- The five error kinds (60_exceptions.md rule R200). Each is reported exactly where the spec reports it;
none stands in for behaviour the spec gives, so each is safe. -/
inductive ErrorKind where
  /-- Raised by the LOAD port only, for an image over 4096 bytes (rule R201). Safe. -/
  | memoryOverflow
  /-- Raised by the SETREG port only, for an index of 16 or more (rule R202). Safe. -/
  | regIndexOutOfRange
  /-- Raised by output-char and output-number when the sink answers `FAIL` (rule R203). Safe. -/
  | writeError
  /-- Raised by the fetch of an IP of 4096 or more and by an illegal opcode (rule R204). Safe. -/
  | unknownInstruction
  /-- Raised by the IP-advance check, by a register field of 16 or more and by a data span that leaves
  the arena (rule R205). Safe. -/
  | memAddressOutOfRange
  deriving DecidableEq, Repr

/-- The code of an error kind, the spec's own number (rule R200, 92_eei_decisions.md D13). -/
def ErrorKind.code : ErrorKind → Nat
  | .memoryOverflow => 1
  | .regIndexOutOfRange => 2
  | .writeError => 3
  | .unknownInstruction => 4
  | .memAddressOutOfRange => 5

/-! ### State -/

/-- The state of the machine. `regs` and `mem` are the whole architectural state (rule R29). -/
structure State where
  /-- The register file, r0 to r15, r0 the instruction pointer (rules R20, R21). -/
  regs : Vector Word Config.nregs
  /-- The 4096-byte arena (rule R29). -/
  mem : Memory
  /-- The model's own: the sink on the other side of the SINK port (rules R31, R183). -/
  sink : Sink
  /-- The model's own: what the last completed step answered on the STEP port, none before the first. No
  step reads it, and every completed step overwrites it: the core latches no outcome (rules R112, R119). -/
  answered : Option StepAnswer
  deriving DecidableEq, Repr

/-- The stops of a step. The errors carry the state the failed step leaves (40_step.md rule R113), from
which a host may step again by the same rules (rule R120; notes/assumptions/4.md). -/
inductive Fault where
  /-- The step's outcome is `Error(kind)` and it leaves the state `left` (rules R12, R113). Raised by the
  fetch, by the decoder and by every instruction whose check or sink transaction fails; the kind says
  which. Safe: the spec ends the step, and the run, here. -/
  | error (kind : ErrorKind) (left : State)
  /-- The sink never answers the transaction of an output-char or output-number: the step has no outcome
  and leaves no state (rule R116). Raised by the SINK port only. Safe: the machine makes no further step. -/
  | sinkSilent
  deriving DecidableEq, Repr

/-- The refusals. No instruction is refused in this model. -/
inductive Refusal where
  /-- An instruction without a meaning, raised only by an arm of `exec`; safe. No arm raises it now. -/
  | notModelled (mnemonic : String)
  deriving DecidableEq, Repr

/-- What a step ends in. -/
abbrev Result := Host.Outcome State Fault Refusal

/-! ### Reset -/

/-- The sink of the reset state: it has taken nothing and accepts every transaction. The spec leaves the
sink to the host (10_state.md section 6). DESIGN CHOICE, unsafe: notes/assumptions/1.md. -/
def Sink.accepting : Sink := { taken := [], answers := [], thereafter := .ok }

/-- The machine right after construction from the empty image: all 16 registers 0, IP included, and every
byte of the arena 0 (70_reset_and_hazards.md rules R240, R241). `sink` and `answered` are the model's own
(notes/assumptions/1.md and 3.md); how a program comes to run is notes/assumptions/6.md. -/
def State.reset : State :=
  { regs := Vector.replicate Config.nregs 0, mem := [], sink := Sink.accepting, answered := none }

end Sys2Proof.Machine
end

