-- ==== Sys2Proof/Machine/Ops.lean ====
section
/-! DEFINITION. The named operations over registers, the arena and the sink, and the one way a step
fails. -/

namespace Sys2Proof.Machine

/-! ### Registers -/

/-- The index of a register that exists (10_state.md rule R20). -/
abbrev RegIdx := Fin Config.nregs

/-- `IP_REG`: the register that is the instruction pointer (00_scope.md rule R6, 10_state.md rule R21). -/
def ipReg : RegIdx := 0

namespace State

/-- `x[i]` (00_scope.md rule R10). -/
def reg (s : State) (i : RegIdx) : Word := s.regs[i]

/-- `x[i] <- v`: any register, r0 included; none is hardwired (rule R10, 10_state.md rules R22, R23). -/
def setReg (s : State) (i : RegIdx) (v : Word) : State := { s with regs := s.regs.set i v }

/-- `ip`, which is `x[0]` and has no storage of its own (10_state.md rule R21). -/
def ip (s : State) : Word := s.reg ipReg

/-- `pc <- t` (00_scope.md rule R10). -/
def setIp (s : State) (v : Word) : State := s.setReg ipReg v

/-- The state with another arena. -/
def setMem (s : State) (m : Memory) : State := { s with mem := m }

/-- The state with another sink. -/
def setSink (s : State) (k : Sink) : State := { s with sink := k }

/-- The state with another answer on the STEP port. -/
def setAnswered (s : State) (o : Option StepAnswer) : State := { s with answered := o }

end State

/-! ### The arena -/

namespace Memory

/-- `mem[a]` (00_scope.md rule R11); an offset without an entry holds `unlisted`. -/
def read : Memory → Nat → Byte
  | [], _ => unlisted
  | (k, b) :: m, a => if a = k then b else read m a

/-- `mem[a] <- b`, keeping the canonical form: writing `unlisted` removes the entry. -/
def write : Memory → Nat → Byte → Memory
  | [], a, b => if b = unlisted then [] else [(a, b)]
  | (k, c) :: m, a, b =>
    if a < k then (if b = unlisted then (k, c) :: m else (a, b) :: (k, c) :: m)
    else if a = k then (if b = unlisted then m else (a, b) :: m)
    else (k, c) :: write m a b

/-- `MemRead(a, 4)`: little-endian, the byte at `a` in bits 7:0 (rule R11, 20_memory.md rule R54). -/
def read32 (m : Memory) (a : Nat) : Word :=
  wordOfBytes (m.read a) (m.read (a + 1)) (m.read (a + 2)) (m.read (a + 3))

/-- `MemWrite(a, 4, v)`: bits 7:0 of `v` at `a` (rule R11, 20_memory.md rule R54). -/
def write32 (m : Memory) (a : Nat) (v : Word) : Memory :=
  (((m.write a (byteOf v 0)).write (a + 1) (byteOf v 1)).write (a + 2) (byteOf v 2)).write (a + 3)
    (byteOf v 3)

/-- The bytes `bs` written from offset `a` on, in address order. -/
def place : Memory → Nat → List Byte → Memory
  | m, _, [] => m
  | m, a, b :: bs => place (m.write a b) (a + 1) bs

/-- As `place`, without the bytes that would lie past the arena. -/
def placeInArena : Memory → Nat → List Byte → Memory
  | m, _, [] => m
  | m, a, b :: bs => placeInArena (if a < Config.memSize then m.write a b else m) (a + 1) bs

end Memory

/-! ### The end of a step -/

/-- `raise E` (00_scope.md rule R12): the step ends with `Error(E)` in the state its earlier phases have
committed. This is all the core does on an error: it saves nothing, changes no mode and jumps to no vector
(60_exceptions.md rule R209), and no instruction returns from one (rule R210). -/
def raise (e : ErrorKind) (s : State) : Result := .fault (.error e s)

/-- `finish Continue` and `finish Terminated` (00_scope.md rule R12). -/
def finish (o : StepAnswer) (s : State) : Result := .next (s.setAnswered (some o))

/-- The state a fault leaves, from which the host may step again (40_step.md rules R113, R120); none where
the step never ends (rule R116). -/
def Fault.left : Fault → Option State
  | .error _ s => some s
  | .sinkSilent => none

/-! ### The SINK port -/

namespace Sink

/-- The answer to the next transaction. -/
def answer (k : Sink) : SinkAnswer := k.answers.headD k.thereafter

/-- The sink once it has taken `bs` and given its next answer: the bytes go after all earlier ones
(43_output_exit.md rule R183). -/
def take (k : Sink) (bs : List Byte) : Sink :=
  { k with taken := k.taken ++ bs, answers := k.answers.tail }

end Sink

/-- `SinkWrite(bs)` as the last phase of an output instruction (43_output_exit.md rule R183): one
transaction with all the bytes. `OK` takes them all and the step continues; `FAIL` takes the first `k` and
the step raises `WriteError`; without an answer the step has no outcome (40_step.md rule R116). -/
def sinkWrite (bs : List Byte) (s : State) : Result :=
  match s.sink.answer with
  | .ok => finish .continued (s.setSink (s.sink.take bs))
  | .fail k => raise .writeError (s.setSink (s.sink.take (bs.take k)))
  | .silent => .fault .sinkSilent

end Sys2Proof.Machine
end

