-- ==== Sys2Proof/Machine/Operands.lean ====
section
/-! DEFINITION. The bounds checker (40_step.md rule R114) and the phases of a step that every instruction
shares: the IP advance, the check of a register-index field, and the check of a data span. A register
index, the one 16-bit immediate and the register-indirect address are the only operand forms
(30_encoding.md rule R80, 42_load_store.md rule R162). -/

namespace Sys2Proof.Machine

/-! ### The four predicates, over unbounded integers (rule R114) -/

/-- `fetchOK` (rule R102). -/
def fetchOK (ip : Nat) : Bool := decide (ip < Config.memSize)

/-- `advanceOK` (rule R106): an advance to 4096 itself is allowed. -/
def advanceOK (ip n : Nat) : Bool := decide (ip + n ≤ Config.memSize)

/-- `regOK` (rule R108). -/
abbrev regOK (f : Nat) : Prop := f < Config.nregs

/-- `spanOK` (20_memory.md rule R60): the sum never wraps. -/
def spanOK (a : Nat) : Bool := decide (a + 3 ≤ Config.memSize - 1)

/-! ### The shared phases -/

/-- The state after the IP advance by `n` (rule R107). -/
def State.advanced (s : State) (n : Nat) : State := s.setIp (BitVec.ofNat 32 (s.ip.toNat + n))

/-- Phases 4 and 5 of rule R101: the advance check, then the advance; a refused advance changes nothing
(rules R106, R107). UNVERIFIED, the spec's own decisions D3 and D4: notes/assumptions/12.md. -/
def withAdvance (n : Nat) (s : State) (k : State → Result) : Result :=
  if advanceOK s.ip.toNat n then k (s.advanced n) else raise .memAddressOutOfRange s

/-- Phase 6 of rule R101 for one field: a register that exists goes on, a value of 16 or more raises
`MemAddressOutOfRange` (rule R108). The order among the fields of one instruction is invisible, since every
failing field gives the same error and state. UNVERIFIED, D20: notes/assumptions/13.md; a field of 256 or more
has no encoding: notes/assumptions/10.md. -/
def withReg (f : Nat) (s : State) (k : RegIdx → Result) : Result :=
  if h : regOK f then k ⟨f, h⟩ else raise .memAddressOutOfRange s

/-- The data-span check: the address of a 4-byte access, or `MemAddressOutOfRange` with no access made
(20_memory.md rule R60). The address is the register's value, unsigned and unchanged
(42_load_store.md rule R162). UNVERIFIED: no wrap (D6, notes/assumptions/13.md), no alignment (D21,
notes/assumptions/14.md). -/
def withSpan (a : Word) (s : State) (k : Nat → Result) : Result :=
  if spanOK a.toNat then k a.toNat else raise .memAddressOutOfRange s

end Sys2Proof.Machine
end

