-- ==== Sys2Proof/Machine/LoadStore.lean ====
section
/-! DEFINITION. The memory instructions: store and load (42_load_store.md). -/

namespace Sys2Proof.Machine

/-- store, opcode 2 (rule R160): the address register is operand byte 1. -/
def execStore (ri rj : Nat) (s : State) : Result :=
  withAdvance (Opcode.len .store) s fun s =>
  withReg ri s fun p => withReg rj s fun v =>
  withSpan (s.reg p) s fun a =>
  finish .continued (s.setMem (s.mem.write32 a (s.reg v)))

/-- load, opcode 3 (rule R161): the address register is operand byte 2. -/
def execLoad (ri rj : Nat) (s : State) : Result :=
  withAdvance (Opcode.len .load) s fun s =>
  withReg ri s fun d => withReg rj s fun p =>
  withSpan (s.reg p) s fun a =>
  finish .continued (s.setReg d (s.mem.read32 a))

end Sys2Proof.Machine
end

