-- ==== Sys2Proof/Machine/Flags.lean ====
section
/-! DEFINITION. The block has no flags, no condition codes and no status register (10_state.md rule R29):
no instruction writes one and no result has a carry, borrow or overflow (41_register_ops.md rule R143).
What stands here is the ALU (40_step.md rule R115), its zero test among them, the only condition of the
ISA. The fourth ALU function, the IP's increment, is `State.advanced`. -/

namespace Sys2Proof.Machine

/-- `sub32`: subtraction modulo 2^32 (rules R115, R142). -/
def sub32 (a b : Word) : Word := a - b

/-- `sext16`: the 16 bits `{hi, lo}` sign-extended (rules R115, R141, 30_encoding.md rule R79). -/
def sext16 (imm : BitVec 16) : Word := imm.signExtend 32

/-- `nz`: all 32 bits are tested (rules R115, R140). -/
def nz (c : Word) : Bool := decide (c ≠ 0)

/-- `s32`: the two's-complement reading (00_scope.md rule R9). -/
def s32 (v : Word) : Int := v.toInt

end Sys2Proof.Machine
end

