-- ==== Sys2Proof/Machine/Text.lean ====
section
/-! DEFINITION. The bytes the output instructions send: one UTF-8 character or a decimal numeral
(43_output_exit.md rules R184 and R185). -/

namespace Sys2Proof.Machine

/-- `utf8(c)`: the code point U+0000 to U+00FF of a byte in one or two bytes (rule R184). UNVERIFIED for
0x80 to 0xFF (92_eei_decisions.md D11; notes/assumptions/9.md). -/
def utf8 (c : Byte) : List Byte :=
  if c.toNat < 0x80 then [c] else [0xC0 + (c >>> 6), 0x80 + (c &&& 0x3F)]

/-- The byte of the digit `d` (rule R185). -/
def digitByte (d : Nat) : Byte := BitVec.ofNat 8 (0x30 + d)

/-- The decimal digits of `m`, most significant first, no leading zero, "0" for zero; `fuel` bounds their
number. -/
def digits : Nat → Nat → List Byte
  | 0, _ => []
  | fuel + 1, m =>
    if m < 10 then [digitByte m] else digits fuel (m / 10) ++ [digitByte (m % 10)]

/-- The most digits a 32-bit magnitude can need: that of -2^31 is 2147483648. -/
def maxDigits : Nat := 10

/-- `decimal(n)`: "-" for a negative number, then the digits of the magnitude (rule R185). -/
def decimal (n : Int) : List Byte :=
  if n < 0 then 0x2D :: digits maxDigits n.natAbs else digits maxDigits n.natAbs

end Sys2Proof.Machine
end

