-- ==== Sys2Proof/Machine/OutputExit.lean ====
section
/-! DEFINITION. The output and control instructions: output-char, exit, output-number
(43_output_exit.md). -/

namespace Sys2Proof.Machine

/-- output-char, opcode 6 (rule R180): the low 8 bits of the register as one UTF-8 character. -/
def execOutc (ri : Nat) (s : State) : Result :=
  withAdvance (Opcode.len .outc) s fun s =>
  withReg ri s fun r =>
  sinkWrite (utf8 (byteOf (s.reg r) 0)) s

/-- exit, opcode 7 (rule R181): the step answers `Terminated`; nothing is latched (40_step.md rule R119). -/
def execExit (s : State) : Result :=
  withAdvance (Opcode.len .exit) s fun s =>
  finish .terminated s

/-- output-number, opcode 8 (rule R182): the signed decimal text of the register. -/
def execOutn (ri : Nat) (s : State) : Result :=
  withAdvance (Opcode.len .outn) s fun s =>
  withReg ri s fun r =>
  sinkWrite (decimal (s32 (s.reg r))) s

end Sys2Proof.Machine
end

