-- ==== Sys2Proof/Machine/RegisterOps.lean ====
section
/-! DEFINITION. The register and ALU instructions: move-if, load-immediate, subtract
(41_register_ops.md). Every register is read after the IP advance (40_step.md rule R109) and before the
one write (rule R110). Reading after the advance is UNVERIFIED, the spec's own decision D2:
notes/assumptions/5.md. -/

namespace Sys2Proof.Machine

/-- move-if, opcode 1 (rule R140). -/
def execMovif (rd rs rc : Nat) (s : State) : Result :=
  withAdvance (Opcode.len .movif) s fun s =>
  withReg rd s fun d => withReg rs s fun r => withReg rc s fun c =>
  finish .continued (if nz (s.reg c) then s.setReg d (s.reg r) else s)

/-- load-immediate, opcode 4 (rule R141). -/
def execLi (ri : Nat) (imm : BitVec 16) (s : State) : Result :=
  withAdvance (Opcode.len .li) s fun s =>
  withReg ri s fun d =>
  finish .continued (s.setReg d (sext16 imm))

/-- subtract, opcode 5 (rule R142). -/
def execSub (rd ra rb : Nat) (s : State) : Result :=
  withAdvance (Opcode.len .sub) s fun s =>
  withReg rd s fun d => withReg ra s fun a => withReg rb s fun b =>
  finish .continued (s.setReg d (sub32 (s.reg a) (s.reg b)))

end Sys2Proof.Machine
end

