-- ==== Sys2Proof/Machine/Dispatch.lean ====
section
/-! DEFINITION. One arm per instruction: phases 4 to 8 of 40_step.md rule R101 for a decoded
instruction. -/

namespace Sys2Proof.Machine

def exec (i : Instr) (s : State) : Host.Outcome State Fault Refusal :=
  match i with
  | .movif rd rs rc => Sys2Proof.Machine.execMovif rd rs rc s
  | .store ri rj => Sys2Proof.Machine.execStore ri rj s
  | .load ri rj => Sys2Proof.Machine.execLoad ri rj s
  | .li ri imm => Sys2Proof.Machine.execLi ri imm s
  | .sub rd ra rb => Sys2Proof.Machine.execSub rd ra rb s
  | .outc ri => Sys2Proof.Machine.execOutc ri s
  | .exit => Sys2Proof.Machine.execExit s
  | .outn ri => Sys2Proof.Machine.execOutn ri s

end Sys2Proof.Machine
end

