-- ==== Sys2Proof/Machine/Fetch.lean ====
section
/-! DEFINITION. The fetch unit (40_step.md section 2) and the placing of an instruction where it
fetches. -/

namespace Sys2Proof.Machine

/-- `FetchByte(a)`: the arena's byte, or zero padding past its end, which is no memory
(rule R103, 20_memory.md rule R63). -/
def State.fetchByte (s : State) (a : Nat) : Byte :=
  if a < Config.memSize then s.mem.read a else 0

/-- The window `W` at the instruction pointer, always four bytes (rule R103). -/
def State.fetchWindow (s : State) : Word :=
  let a := s.ip.toNat
  wordOfBytes (s.fetchByte a) (s.fetchByte (a + 1)) (s.fetchByte (a + 2)) (s.fetchByte (a + 3))

/-- Phases 1 to 3 of rule R101: the fetch-range check, the window and the decoder. None is an
`UnknownInstruction` (rules R102, R105). -/
def State.fetchDecode (s : State) : Option Instr :=
  if fetchOK s.ip.toNat then (decode s.fetchWindow).toOption else none

/-- The four bytes of a window written at the instruction pointer, as far as the arena reaches. -/
def State.placeWindow (s : State) (w : Word) : State :=
  s.setMem (s.mem.placeInArena s.ip.toNat [byteOf w 0, byteOf w 1, byteOf w 2, byteOf w 3])

end Sys2Proof.Machine
end

