-- ==== Sys2Proof/Machine/Step.lean ====
section
/-! DEFINITION. One step of the core (40_step.md rules R100 and R101). -/

namespace Sys2Proof.Machine

/-- `STEP`: fetch and decode, then the instruction from the state it was fetched in. Where there is no
instruction the step fails with `UnknownInstruction` and changes nothing (rules R102, R105). A step is
atomic and untimed (UNVERIFIED, the spec's own decisions: notes/assumptions/17.md). -/
def step (s : State) : Host.Outcome State Fault Refusal :=
  match s.fetchDecode with
  | some i => exec i s
  | none => raise .unknownInstruction s

/-- `s` with a table word stored where the next step fetches: at the instruction pointer. It stands for the
image the host loads (notes/assumptions/6.md). -/
def State.withFetchWord (s : State) (nbits w : Nat) : State := s.placeWindow (tableWindow nbits w)

end Sys2Proof.Machine
end

