-- ==== Sys2Proof/Machine/Ports.lean ====
section
/-! DEFINITION. The host ports of 10_state.md rule R32: LOAD, RUN, SETREG and the two views. STEP is
`step`; SINK is `sinkWrite`. The host uses them one at a time, between steps. -/

namespace Sys2Proof.Machine

/-- The arena of an image: its bytes from offset 0, zero after them (70_reset_and_hazards.md rule R240). -/
def Memory.ofImage (image : List Byte) : Memory := Memory.place [] 0 image

/-- `LOAD`: construction, the block's only reset, with the sink the host supplies (rules R240, R245). An
image over 4096 bytes gives `MemoryOverflow` and no machine (rule R241). -/
def loadPort (image : List Byte) (sink : Sink) : Except ErrorKind State :=
  if image.length ≤ Config.memSize then
    .ok { regs := Vector.replicate Config.nregs 0, mem := Memory.ofImage image, sink := sink,
          answered := none }
  else .error .memoryOverflow

/-- `SETREG`: any register that exists, r0 included; any other index is refused and nothing changes
(10_state.md rule R33). -/
def setRegPort (i : Nat) (v : Word) (s : State) : Except ErrorKind State :=
  if h : i < Config.nregs then .ok (s.setReg ⟨i, h⟩ v) else .error .regIndexOutOfRange

/-- `REGVIEW`: the 16 register values (10_state.md rule R34). -/
def regView (s : State) : List Word := s.regs.toList

/-- `MEMVIEW`: the 4096 bytes of the arena (10_state.md rule R34). -/
def memView (s : State) : List Byte := (List.range Config.memSize).map s.mem.read

/-- What is known of a RUN after some number of its steps. -/
inductive RunAnswer where
  /-- RUN has responded `Terminated`, in this state. -/
  | terminated (final : State)
  /-- RUN has responded `Error(kind)`; the failed step left this state. -/
  | error (kind : ErrorKind) (left : State)
  /-- A step of the run has no outcome: the sink does not answer (40_step.md rule R116). -/
  | hung
  /-- Every step so far answered `Continue`: RUN has not responded. -/
  | running (now : State)
  /-- A step was refused; no step of this model is. -/
  | refused (r : Refusal)
  deriving DecidableEq, Repr

/-- `RUN` looked at after at most `n` steps: steps until one answers `Terminated` or `Error(E)`, and none
after it (40_step.md rule R117). The core has no step limit (rule R118); `n` is how far the reader looks
(notes/assumptions/11.md). -/
def run : Nat → State → RunAnswer
  | 0, s => .running s
  | n + 1, s =>
    match step s with
    | .next t => if t.answered = some .terminated then .terminated t else run n t
    | .fault (.error e l) => .error e l
    | .fault .sinkSilent => .hung
    | .refused r => .refused r

end Sys2Proof.Machine
end

