-- ==== Sys2Proof/Safety.lean ====
section
/-! DEFINITION. The terms in which claims about the machine are made: the invariant, what a run without
errors is, and what an instruction may write. -/

namespace Sys2Proof.Machine

/-- The invariant of the machine: the arena is in its canonical form. Every state the ports build has it. -/
abbrev State.Inv (s : State) : Prop := s.mem.wf

/-- The byte at an offset of the arena, as a reader of MEMVIEW sees it. -/
abbrev State.byteAt (s : State) (a : Nat) : Byte := s.mem.read a

/-- The value register `i` holds after an IP advance by `n` (40_step.md rules R107, R109). -/
def State.regAfter (s : State) (n : Nat) (i : RegIdx) : Word :=
  if i = 0 then BitVec.ofNat 32 (s.ip.toNat + n) else s.reg i

/-- `l` is `s` with the IP advanced by `n` and nothing else changed (40_step.md rule R108): every register,
every byte of the arena, the sink and the last answer. -/
def State.ipAdvancedOnly (s : State) (n : Nat) (l : State) : Prop :=
  (∀ i, l.reg i = s.regAfter n i) ∧ l.mem = s.mem ∧ l.sink = s.sink ∧ l.answered = s.answered

/-- `t` has the registers `x`, and nothing else of `s` is changed but the answer `o` of the completed step: no
byte of the arena and nothing of the sink. -/
def State.leadsTo (s t : State) (x : RegIdx → Word) (o : StepAnswer) : Prop :=
  (∀ i, t.reg i = x i) ∧ (∀ a, t.byteAt a = s.byteAt a) ∧ t.sink = s.sink ∧ t.answered = some o

/-- Offset `x` is one of the four bytes of a data access at `a`. -/
abbrev inSpan (a x : Nat) : Prop := a ≤ x ∧ x < a + Config.dataWidth

/-- The register field that an instruction may write in its effect, none for those that write no register
(40_step.md rules R110, R111). -/
def destField : Instr → Option Nat
  | .movif rd _ _ => some rd
  | .store _ _ => none
  | .load ri _ => some ri
  | .li ri _ => some ri
  | .sub rd _ _ => some rd
  | .outc _ => none
  | .exit => none
  | .outn _ => none

/-- The register field that holds the address of an instruction's data access, none for those that make none
(42_load_store.md rules R160, R161). -/
def addrField : Instr → Option Nat
  | .movif _ _ _ => none
  | .store ri _ => some ri
  | .load _ rj => some rj
  | .li _ _ => none
  | .sub _ _ _ => none
  | .outc _ => none
  | .exit => none
  | .outn _ => none

/-- The data span of the instruction leaves the arena: its address register, read after the advance, is over
4092 (20_memory.md rule R60). -/
def spanFails (i : Instr) (s : State) : Prop :=
  ∃ f : RegIdx, addrField i = some f.val ∧ 4095 < (s.regAfter i.len f).toNat + 3

/-- The instruction is a store, the only one that writes memory (20_memory.md rule R69). -/
def isStore : Instr → Bool
  | .movif _ _ _ => false
  | .store _ _ => true
  | .load _ _ => false
  | .li _ _ => false
  | .sub _ _ _ => false
  | .outc _ => false
  | .exit => false
  | .outn _ => false

/-- The instruction makes a sink transaction, if its checks pass (43_output_exit.md rule R183). -/
def isOutput : Instr → Bool
  | .movif _ _ _ => false
  | .store _ _ => false
  | .load _ _ => false
  | .li _ _ => false
  | .sub _ _ _ => false
  | .outc _ => true
  | .exit => false
  | .outn _ => true

/-- `k` steps from `s`, each with outcome `Continue`, lead to `u`. -/
def Continues : Nat → State → State → Prop
  | 0, s, u => u = s
  | k + 1, s, u => ∃ t, step s = .next t ∧ t.answered = some .continued ∧ Continues k t u

/-- A safe run of `n` steps: none of them fails or hangs, and it ends in `t`. -/
def SafeRun (n : Nat) (s t : State) : Prop := Host.Core.run Sys2Proof.core n s = .next t

end Sys2Proof.Machine
end

