-- ==== Sys2Proof/Certificates/Slice0/Obligations.lean ====
section
/-! DEFINITION. The statements for the provers. Numbers stand as literals, so that a statement says what
the spec says whatever the model's named constants hold. `x[i]` after the IP advance is `s.regAfter n i`;
a byte of the arena is `s.byteAt a`; `t.answered` is how the model's state shows the outcome of the step
(notes/assumptions/3.md), and `t.sink` the sink beyond the SINK port (notes/assumptions/1.md).

What the spec marks as its own decision and statements below use: operands are read after the advance
(rule R109, 92_eei_decisions.md D2), an advance to 4096 is allowed and a refused one changes nothing
(rule R106, D3 and D4), the order of the checks (D5), check sums never wrap (rule R9, D6), and the character
bytes of rule R184 (D11). Each per-instruction rule repeats, in its own text, the ones it uses. -/

open Sys2Proof Sys2Proof.Machine

/-! ### The eight instructions -/

/-- 41_register_ops.md rule R140, whole: encoding, errors, effect and frame. -/
def Obligations.MovifMovesIfConditionNonzero : Prop :=
  (∀ rd rs rc : Nat, rd < 256 → rs < 256 → rc < 256 →
    encode (.movif rd rs rc) = [0x01, BitVec.ofNat 8 rd, BitVec.ofNat 8 rs, BitVec.ofNat 8 rc]) ∧
  (∀ (s : State) (rd rs rc : Nat), 4096 < s.ip.toNat + 4 →
    exec (.movif rd rs rc) s = .fault (.error .memAddressOutOfRange s)) ∧
  (∀ (s : State) (rd rs rc : Nat), s.ip.toNat + 4 ≤ 4096 → (16 ≤ rd ∨ 16 ≤ rs ∨ 16 ≤ rc) →
    ∃ l, exec (.movif rd rs rc) s = .fault (.error .memAddressOutOfRange l) ∧ s.ipAdvancedOnly 4 l) ∧
  (∀ (s : State) (d r c : Fin 16), s.ip.toNat + 4 ≤ 4096 →
    ∃ t, exec (.movif d.val r.val c.val) s = .next t ∧
      (∀ i, t.reg i = if s.regAfter 4 c ≠ 0 ∧ i = d then s.regAfter 4 r else s.regAfter 4 i) ∧
      (∀ a, t.byteAt a = s.byteAt a) ∧ t.sink = s.sink ∧ t.answered = some .continued)

/-- 41_register_ops.md rule R141, whole. -/
def Obligations.LiLoadsSignExtendedImmediate : Prop :=
  (∀ (ri : Nat) (lo hi : Byte), ri < 256 → encode (.li ri (hi ++ lo)) = [0x04, BitVec.ofNat 8 ri, lo, hi]) ∧
  (∀ (s : State) (ri : Nat) (imm : BitVec 16), 4096 < s.ip.toNat + 4 →
    exec (.li ri imm) s = .fault (.error .memAddressOutOfRange s)) ∧
  (∀ (s : State) (ri : Nat) (imm : BitVec 16), s.ip.toNat + 4 ≤ 4096 → 16 ≤ ri →
    ∃ l, exec (.li ri imm) s = .fault (.error .memAddressOutOfRange l) ∧ s.ipAdvancedOnly 4 l) ∧
  (∀ (s : State) (d : Fin 16) (lo hi : Byte), s.ip.toNat + 4 ≤ 4096 →
    ∃ t, exec (.li d.val (hi ++ lo)) s = .next t ∧
      (∀ i, t.reg i =
        if i = d then
          BitVec.ofNat 32 (hi.toNat * 256 + lo.toNat + (if 128 ≤ hi.toNat then 0xFFFF0000 else 0))
        else s.regAfter 4 i) ∧
      (∀ a, t.byteAt a = s.byteAt a) ∧ t.sink = s.sink ∧ t.answered = some .continued)

/-- 41_register_ops.md rule R142, whole: the difference is taken modulo 2^32. -/
def Obligations.SubWrapsModulo : Prop :=
  (∀ rd ra rb : Nat, rd < 256 → ra < 256 → rb < 256 →
    encode (.sub rd ra rb) = [0x05, BitVec.ofNat 8 rd, BitVec.ofNat 8 ra, BitVec.ofNat 8 rb]) ∧
  (∀ (s : State) (rd ra rb : Nat), 4096 < s.ip.toNat + 4 →
    exec (.sub rd ra rb) s = .fault (.error .memAddressOutOfRange s)) ∧
  (∀ (s : State) (rd ra rb : Nat), s.ip.toNat + 4 ≤ 4096 → (16 ≤ rd ∨ 16 ≤ ra ∨ 16 ≤ rb) →
    ∃ l, exec (.sub rd ra rb) s = .fault (.error .memAddressOutOfRange l) ∧ s.ipAdvancedOnly 4 l) ∧
  (∀ (s : State) (d a b : Fin 16), s.ip.toNat + 4 ≤ 4096 →
    ∃ t, exec (.sub d.val a.val b.val) s = .next t ∧
      (∀ i, t.reg i =
        if i = d then BitVec.ofInt 32 ((s.regAfter 4 a).toNat - (s.regAfter 4 b).toNat : Int)
        else s.regAfter 4 i) ∧
      (∀ x, t.byteAt x = s.byteAt x) ∧ t.sink = s.sink ∧ t.answered = some .continued)

/-- 42_load_store.md rule R160, whole. The stored address is the address register's value after the advance;
every byte outside the four stored reads as before. The arena is canonical (`StepKeepsArenaCanonical`). -/
def Obligations.StoreWritesFourLittleEndianBytes : Prop :=
  (∀ ri rj : Nat, ri < 256 → rj < 256 →
    encode (.store ri rj) = [0x02, BitVec.ofNat 8 ri, BitVec.ofNat 8 rj]) ∧
  (∀ (s : State) (ri rj : Nat), 4096 < s.ip.toNat + 3 →
    exec (.store ri rj) s = .fault (.error .memAddressOutOfRange s)) ∧
  (∀ (s : State) (ri rj : Nat), s.ip.toNat + 3 ≤ 4096 → (16 ≤ ri ∨ 16 ≤ rj) →
    ∃ l, exec (.store ri rj) s = .fault (.error .memAddressOutOfRange l) ∧ s.ipAdvancedOnly 3 l) ∧
  (∀ (s : State) (p v : Fin 16), s.ip.toNat + 3 ≤ 4096 → 4092 < (s.regAfter 3 p).toNat →
    ∃ l, exec (.store p.val v.val) s = .fault (.error .memAddressOutOfRange l) ∧ s.ipAdvancedOnly 3 l) ∧
  (∀ (s : State) (p v : Fin 16), s.Inv → s.ip.toNat + 3 ≤ 4096 → (s.regAfter 3 p).toNat ≤ 4092 →
    ∃ t, exec (.store p.val v.val) s = .next t ∧
      (∀ i, t.reg i = s.regAfter 3 i) ∧
      (∀ x, t.byteAt x =
        if (s.regAfter 3 p).toNat ≤ x ∧ x < (s.regAfter 3 p).toNat + 4 then
          BitVec.ofNat 8 ((s.regAfter 3 v).toNat / 2 ^ (8 * (x - (s.regAfter 3 p).toNat)))
        else s.byteAt x) ∧
      t.sink = s.sink ∧ t.answered = some .continued)

/-- 42_load_store.md rule R161, whole. -/
def Obligations.LoadReadsFourLittleEndianBytes : Prop :=
  (∀ ri rj : Nat, ri < 256 → rj < 256 →
    encode (.load ri rj) = [0x03, BitVec.ofNat 8 ri, BitVec.ofNat 8 rj]) ∧
  (∀ (s : State) (ri rj : Nat), 4096 < s.ip.toNat + 3 →
    exec (.load ri rj) s = .fault (.error .memAddressOutOfRange s)) ∧
  (∀ (s : State) (ri rj : Nat), s.ip.toNat + 3 ≤ 4096 → (16 ≤ ri ∨ 16 ≤ rj) →
    ∃ l, exec (.load ri rj) s = .fault (.error .memAddressOutOfRange l) ∧ s.ipAdvancedOnly 3 l) ∧
  (∀ (s : State) (d p : Fin 16), s.ip.toNat + 3 ≤ 4096 → 4092 < (s.regAfter 3 p).toNat →
    ∃ l, exec (.load d.val p.val) s = .fault (.error .memAddressOutOfRange l) ∧ s.ipAdvancedOnly 3 l) ∧
  (∀ (s : State) (d p : Fin 16), s.ip.toNat + 3 ≤ 4096 → (s.regAfter 3 p).toNat ≤ 4092 →
    ∃ t, exec (.load d.val p.val) s = .next t ∧
      (∀ i, t.reg i =
        if i = d then
          BitVec.ofNat 32 ((s.byteAt (s.regAfter 3 p).toNat).toNat +
            2 ^ 8 * (s.byteAt ((s.regAfter 3 p).toNat + 1)).toNat +
            2 ^ 16 * (s.byteAt ((s.regAfter 3 p).toNat + 2)).toNat +
            2 ^ 24 * (s.byteAt ((s.regAfter 3 p).toNat + 3)).toNat)
        else s.regAfter 3 i) ∧
      (∀ x, t.byteAt x = s.byteAt x) ∧ t.sink = s.sink ∧ t.answered = some .continued)

/-- 43_output_exit.md section 1 (output-char). The character's bytes follow the spec's own decision D11
(rule R184), so the statement is derived. The sink's answer is an input: `OK` completes the step, `FAIL`
with any prefix raises `WriteError` (rule R183, D9; notes/assumptions/1.md). -/
def Obligations.OutcSendsOneUtf8Character : Prop :=
  (∀ ri : Nat, ri < 256 → encode (.outc ri) = [0x06, BitVec.ofNat 8 ri]) ∧
  (∀ (s : State) (ri : Nat), 4096 < s.ip.toNat + 2 →
    exec (.outc ri) s = .fault (.error .memAddressOutOfRange s)) ∧
  (∀ (s : State) (ri : Nat), s.ip.toNat + 2 ≤ 4096 → 16 ≤ ri →
    ∃ l, exec (.outc ri) s = .fault (.error .memAddressOutOfRange l) ∧ s.ipAdvancedOnly 2 l) ∧
  (∀ (s : State) (r : Fin 16) (c : Nat) (bs : List Byte), s.ip.toNat + 2 ≤ 4096 →
    c = (s.regAfter 2 r).toNat % 256 →
    bs = (if c < 0x80 then [BitVec.ofNat 8 c]
      else [BitVec.ofNat 8 (0xC0 + c / 64), BitVec.ofNat 8 (0x80 + c % 64)]) →
    (s.sink.answer = .ok →
      ∃ t, exec (.outc r.val) s = .next t ∧
        (∀ i, t.reg i = s.regAfter 2 i) ∧ (∀ x, t.byteAt x = s.byteAt x) ∧
        t.sink.taken = s.sink.taken ++ bs ∧ t.answered = some .continued) ∧
    (∀ k, s.sink.answer = .fail k →
      ∃ l, exec (.outc r.val) s = .fault (.error .writeError l) ∧
        (∀ i, l.reg i = s.regAfter 2 i) ∧ (∀ x, l.byteAt x = s.byteAt x) ∧
        l.sink.taken = s.sink.taken ++ bs.take k ∧ l.answered = s.answered))

/-- 43_output_exit.md rule R181, whole: the advance check cannot fail at an IP that fetches. -/
def Obligations.ExitTerminates : Prop :=
  encode .exit = [0x07] ∧
  (∀ s : State, s.ip.toNat < 4096 →
    ∃ t, exec .exit s = .next t ∧
      (∀ i, t.reg i = s.regAfter 1 i) ∧ (∀ x, t.byteAt x = s.byteAt x) ∧ t.sink = s.sink ∧
      t.answered = some .terminated)

/-- 43_output_exit.md sections 3 and 4 (output-number): the text is a minus sign exactly for a negative
number, then the decimal digits of the magnitude, most significant first, as ASCII; "0" for zero. Derived: the
ASCII bytes are the spec's own decision D12 (rule R185), and that `FAIL` may have taken any prefix is its
decision D9 (rule R183), shown through the model's sink, whose form and whose reading of a long prefix are the
model's choices (notes/assumptions/1.md and 15.md). -/
def Obligations.OutnSendsSignedDecimalText : Prop :=
  (∀ ri : Nat, ri < 256 → encode (.outn ri) = [0x08, BitVec.ofNat 8 ri]) ∧
  (∀ (s : State) (ri : Nat), 4096 < s.ip.toNat + 2 →
    exec (.outn ri) s = .fault (.error .memAddressOutOfRange s)) ∧
  (∀ (s : State) (ri : Nat), s.ip.toNat + 2 ≤ 4096 → 16 ≤ ri →
    ∃ l, exec (.outn ri) s = .fault (.error .memAddressOutOfRange l) ∧ s.ipAdvancedOnly 2 l) ∧
  (∀ (s : State) (r : Fin 16) (n : Int) (bs : List Byte), s.ip.toNat + 2 ≤ 4096 →
    n = (if (s.regAfter 2 r).toNat < 2 ^ 31 then ((s.regAfter 2 r).toNat : Int)
      else (s.regAfter 2 r).toNat - 2 ^ 32) →
    bs = (if n < 0 then [0x2D] else []) ++
      (if n = 0 then [0x30]
       else (Nat.digits 10 n.natAbs).reverse.map (fun d => BitVec.ofNat 8 (0x30 + d))) →
    (s.sink.answer = .ok →
      ∃ t, exec (.outn r.val) s = .next t ∧
        (∀ i, t.reg i = s.regAfter 2 i) ∧ (∀ x, t.byteAt x = s.byteAt x) ∧
        t.sink.taken = s.sink.taken ++ bs ∧ t.answered = some .continued) ∧
    (∀ k, s.sink.answer = .fail k →
      ∃ l, exec (.outn r.val) s = .fault (.error .writeError l) ∧
        (∀ i, l.reg i = s.regAfter 2 i) ∧ (∀ x, l.byteAt x = s.byteAt x) ∧
        l.sink.taken = s.sink.taken ++ bs.take k ∧ l.answered = s.answered))

/-! ### Fetch, decode and encode -/

/-- 40_step.md rule R103: the window is the four bytes at IP, those past the arena zero. -/
def Obligations.FetchWindowIsPaddedArena : Prop :=
  ∀ (s : State) (f : Nat → Nat), s.ip.toNat < 4096 →
    (∀ a, f a = if a < 4096 then (s.byteAt a).toNat else 0) →
    s.fetchWindow.toNat = f s.ip.toNat + 2 ^ 8 * f (s.ip.toNat + 1) + 2 ^ 16 * f (s.ip.toNat + 2) +
      2 ^ 24 * f (s.ip.toNat + 3)

/-- 30_encoding.md rules R72 to R77 and R81: the opcode byte selects the format, the fields are fixed
bytes of the window, and the length goes with the opcode. Every other opcode byte is illegal. -/
def Obligations.DecodeFollowsFormats : Prop :=
  ∀ (w : Word) (op b1 b2 b3 : Nat),
    op = w.toNat % 256 → b1 = w.toNat / 2 ^ 8 % 256 → b2 = w.toNat / 2 ^ 16 % 256 → b3 = w.toNat / 2 ^ 24 →
    (op = 1 → decode w = .ok (.movif b1 b2 b3) ∧ (Instr.movif b1 b2 b3).len = 4) ∧
    (op = 2 → decode w = .ok (.store b1 b2) ∧ (Instr.store b1 b2).len = 3) ∧
    (op = 3 → decode w = .ok (.load b1 b2) ∧ (Instr.load b1 b2).len = 3) ∧
    (op = 4 → decode w = .ok (.li b1 (BitVec.ofNat 16 (w.toNat / 2 ^ 16))) ∧
      (Instr.li b1 (BitVec.ofNat 16 (w.toNat / 2 ^ 16))).len = 4) ∧
    (op = 5 → decode w = .ok (.sub b1 b2 b3) ∧ (Instr.sub b1 b2 b3).len = 4) ∧
    (op = 6 → decode w = .ok (.outc b1) ∧ (Instr.outc b1).len = 2) ∧
    (op = 7 → decode w = .ok .exit ∧ Instr.exit.len = 1) ∧
    (op = 8 → decode w = .ok (.outn b1) ∧ (Instr.outn b1).len = 2) ∧
    (op = 0 ∨ 9 ≤ op → decode w = .error (.illegalOpcode (BitVec.ofNat 8 op)))

/-- Words written out from 30_encoding.md section 7: a sanity statement. -/
def Obligations.WrittenWordsDecode : Prop :=
  decodeTableWord 32 0x00050104 = some (.li 1 5) ∧
  decodeTableWord 32 0x02010305 = some (.sub 3 1 2) ∧
  decodeTableWord 16 0x0308 = some (.outn 3) ∧
  decodeTableWord 8 0x07 = some .exit ∧
  decodeTableWord 32 0x01060001 = some (.movif 0 6 1) ∧
  decodeTableWord 24 0x011002 = some (.store 16 1) ∧
  decodeTableWord 32 0x00 = none

/-- Every encoded well-formed instruction decodes to itself, whatever bytes follow it in memory
(30_encoding.md sections 2 and 4). -/
def Obligations.DecodeInvertsEncode : Prop :=
  ∀ (i : Instr) (rest : List Byte), i.wellFormed = true → decodeBytes (encode i ++ rest) = .ok i

/-- What the decoder accepts is well formed, and its encoding is the first `len` bytes of the window
(30_encoding.md sections 1 and 4). -/
def Obligations.EncodeInvertsDecode : Prop :=
  ∀ (b0 b1 b2 b3 : Byte) (i : Instr), decodeBytes [b0, b1, b2, b3] = .ok i →
    i.wellFormed = true ∧ encode i = [b0, b1, b2, b3].take i.len

/-- 30_encoding.md section 4 (don't-care bytes): a window that agrees with `w` in the bytes of its
instruction decodes as `w` does. -/
def Obligations.DecodeIgnoresTrailingBytes : Prop :=
  ∀ (w w' : Word) (i : Instr), decode w = .ok i →
    w'.toNat % 2 ^ (8 * i.len) = w.toNat % 2 ^ (8 * i.len) → decode w' = .ok i

/-! ### The step -/

/-- A step at an IP in the arena whose window decodes to `i` is `exec i` at the same state: `step` adds
nothing around it, since the IP advance is part of `exec` (40_step.md sections 1 to 3). -/
def Obligations.StepExecutesDecodedInstruction : Prop :=
  ∀ (s : State) (i : Instr), s.ip.toNat < 4096 → decode s.fetchWindow = .ok i → step s = exec i s

/-- A well-formed instruction whose bytes stand at IP is the one the step executes (40_step.md sections 1
to 3, 30_encoding.md section 2). -/
def Obligations.StepExecutesInstructionInArena : Prop :=
  ∀ (s : State) (i : Instr), i.wellFormed = true → s.ip.toNat + i.len ≤ 4096 →
    (∀ k (h : k < (encode i).length), s.byteAt (s.ip.toNat + k) = (encode i)[k]) → step s = exec i s

/-- 60_exceptions.md rule R204: a step raises `UnknownInstruction` exactly at an IP past the arena or at an
opcode byte outside 1 to 8, and it leaves the state as it was (40_step.md section 7, first two rows). -/
def Obligations.UnknownInstructionExactly : Prop :=
  ∀ s : State,
    ((∃ l, step s = .fault (.error .unknownInstruction l)) ↔
      4096 ≤ s.ip.toNat ∨ (s.ip.toNat < 4096 ∧
        ((s.byteAt s.ip.toNat).toNat = 0 ∨ 9 ≤ (s.byteAt s.ip.toNat).toNat))) ∧
    (∀ l, step s = .fault (.error .unknownInstruction l) → l = s)

/-- 60_exceptions.md rule R205: a step raises `MemAddressOutOfRange` exactly when the instruction at IP would
advance past 4096, names a register of 16 or more, or makes a data access whose span leaves the arena. -/
def Obligations.MemAddressOutOfRangeExactly : Prop :=
  ∀ s : State,
    (∃ l, step s = .fault (.error .memAddressOutOfRange l)) ↔
      ∃ i, s.fetchDecode = some i ∧
        (4096 < s.ip.toNat + i.len ∨ (∃ f ∈ i.regFields, 16 ≤ f) ∨ spanFails i s)

/-- 60_exceptions.md rule R203: a step raises `WriteError` exactly when an output instruction has passed its
checks and the sink answers `FAIL`. -/
def Obligations.WriteErrorExactly : Prop :=
  ∀ s : State,
    (∃ l, step s = .fault (.error .writeError l)) ↔
      ∃ i k, s.fetchDecode = some i ∧ isOutput i = true ∧ s.ip.toNat + i.len ≤ 4096 ∧
        (∀ f ∈ i.regFields, f < 16) ∧ s.sink.answer = .fail k

/-- 60_exceptions.md rules R201 and R202: LOAD alone raises `MemoryOverflow`, for an image over 4096 bytes,
SETREG alone `RegIndexOutOfRange`, for an index of 16 or more; no step raises either. -/
def Obligations.PortErrorsComeFromPortsOnly : Prop :=
  (∀ (image : List Byte) (k : Sink) (e : ErrorKind),
    loadPort image k = .error e ↔ 4096 < image.length ∧ e = .memoryOverflow) ∧
  (∀ (i : Nat) (v : Word) (s : State) (e : ErrorKind),
    setRegPort i v s = .error e ↔ 16 ≤ i ∧ e = .regIndexOutOfRange) ∧
  (∀ s l : State, step s ≠ .fault (.error .memoryOverflow l) ∧
    step s ≠ .fault (.error .regIndexOutOfRange l))

/-- Every instruction that passes its checks completes, with an accepting sink where it is an output
(40_step.md section 1). -/
def Obligations.CheckedInstructionCompletes : Prop :=
  ∀ (i : Instr) (s : State), s.ip.toNat + i.len ≤ 4096 → (∀ f ∈ i.regFields, f < 16) →
    ¬ spanFails i s → (isOutput i = true → s.sink.answer = .ok) → ∃ t, exec i s = .next t

/-- No step of this model is refused: every instruction has its meaning (30_encoding.md section 4). -/
def Obligations.NoStepIsRefused : Prop := ∀ (s : State) (r : Refusal), step s ≠ .refused r

/-- 40_step.md section 4: an advance past 4096 is refused with nothing changed, for every instruction; so
an instruction that completes has all its bytes in the arena and uses no padding byte (30_encoding.md
section 5). The bound is the spec's own decision D3, the kept IP its D4. -/
def Obligations.AdvancePastArenaRefused : Prop :=
  (∀ (i : Instr) (s : State), 4096 < s.ip.toNat + i.len →
    exec i s = .fault (.error .memAddressOutOfRange s)) ∧
  (∀ s t : State, step s = .next t → ∃ i, s.fetchDecode = some i ∧ s.ip.toNat + i.len ≤ 4096)

/-- 40_step.md rule R108: after the advance, a register field of 16 or more fails every instruction that
has it, with IP advanced and nothing else changed, whether or not move-if's condition holds. -/
def Obligations.RegisterFieldOutOfRangeFails : Prop :=
  ∀ (i : Instr) (s : State) (f : Nat), s.ip.toNat + i.len ≤ 4096 → f ∈ i.regFields → 16 ≤ f →
    ∃ l, exec i s = .fault (.error .memAddressOutOfRange l) ∧ s.ipAdvancedOnly i.len l

/-- 40_step.md section 7 (the table of what a failed step leaves): registers other than IP and the arena are
never changed, IP is unchanged or advanced as the failure point says, and only a `WriteError` reaches the
sink. -/
def Obligations.FailedStepLeavesTable : Prop :=
  ∀ (s : State) (e : ErrorKind) (l : State), step s = .fault (.error e l) →
    (e = .unknownInstruction ∧ l = s) ∨
    (e = .memAddressOutOfRange ∧ l = s ∧
      ∃ i, s.fetchDecode = some i ∧ 4096 < s.ip.toNat + i.len) ∨
    (e = .memAddressOutOfRange ∧
      ∃ i, s.fetchDecode = some i ∧ s.ip.toNat + i.len ≤ 4096 ∧
        ((∃ f ∈ i.regFields, 16 ≤ f) ∨ spanFails i s) ∧ s.ipAdvancedOnly i.len l) ∨
    (e = .writeError ∧
      ∃ (i : Instr) (bs : List Byte) (k : Nat), s.fetchDecode = some i ∧ isOutput i = true ∧
        (∀ j, l.reg j = s.regAfter i.len j) ∧ l.mem = s.mem ∧ l.answered = s.answered ∧
        s.sink.answer = .fail k ∧ bs.length ≤ 11 ∧ l.sink.taken = s.sink.taken ++ bs.take k)

/-- 40_step.md section 8 (no error latch): stepping again after an `UnknownInstruction` fails the same way
for ever, since IP did not move. The reading of a bare STEP after an error is the spec's own decision
D15. -/
def Obligations.UnknownInstructionRepeats : Prop :=
  ∀ s l : State, step s = .fault (.error .unknownInstruction l) →
    step l = .fault (.error .unknownInstruction l)

/-! ### Frames and whole-machine rules -/

/-- 20_memory.md rule R69: after construction only a store writes memory; no other step, no failed step and
no SETREG changes a byte. -/
def Obligations.OnlyStoreWritesArena : Prop :=
  (∀ (s t : State) (i : Instr), s.fetchDecode = some i → step s = .next t → isStore i = false →
    t.mem = s.mem) ∧
  (∀ (s l : State) (e : ErrorKind), step s = .fault (.error e l) → l.mem = s.mem) ∧
  (∀ (i : Nat) (v : Word) (s t : State), setRegPort i v s = .ok t → t.mem = s.mem)

/-- 40_step.md section 6: a completed step changes no register but r0 and the named destination, and r0 moves
by the instruction's length unless it is itself the destination: writing r0 is the only control transfer. -/
def Obligations.StepChangesOnlyDestinationAndIp : Prop :=
  ∀ (s t : State) (i : Instr), s.fetchDecode = some i → step s = .next t →
    ∀ r : RegIdx, destField i ≠ some r.val → t.reg r = s.regAfter i.len r

/-- 40_step.md section 2: IP passes 4096 only by a write to r0, and IP = 4096 otherwise means that the
instruction ended at the last byte. -/
def Obligations.IpLeavesArenaOnlyByWrite : Prop :=
  ∀ (s t : State) (i : Instr), s.fetchDecode = some i → step s = .next t → destField i ≠ some 0 →
    t.ip.toNat = s.ip.toNat + i.len ∧ t.ip.toNat ≤ 4096

/-- 43_output_exit.md section 4 and 20_memory.md section 6: the sink is append-only, a completed output
instruction makes one transaction (it takes one answer, notes/assumptions/1.md) that adds 1 to 11 bytes, and any
other step makes none. -/
def Obligations.SinkIsAppendOnly : Prop :=
  ∀ (s t : State) (i : Instr), s.fetchDecode = some i → step s = .next t →
    (isOutput i = true →
      ∃ bs, t.sink.taken = s.sink.taken ++ bs ∧ 1 ≤ bs.length ∧ bs.length ≤ 11 ∧
        t.sink.answers = s.sink.answers.tail ∧ t.sink.thereafter = s.sink.thereafter) ∧
    (isOutput i = false → t.sink = s.sink)

/-- 40_step.md section 7: a completed step answers `Terminated` exactly when opcode 7 executed, and the core
keeps nothing of an outcome: a step goes the same way whatever the earlier one answered. The missing latch is
the spec's own decision D14; how the answer is shown is notes/assumptions/3.md. -/
def Obligations.TerminatedExactlyByExit : Prop :=
  (∀ (s t : State) (i : Instr), s.fetchDecode = some i → step s = .next t →
    t.answered = some (if i = .exit then .terminated else .continued)) ∧
  (∀ (s t : State) (o : Option StepAnswer), step s = .next t → step (s.setAnswered o) = .next t)

/-- 40_step.md section 7: the outcome, the registers and the arena after a step depend on the registers and
the arena before it, and on the sink only through its answer to an output instruction. That the answer is an
input is the spec's own decision D9. -/
def Obligations.SinkReachesCoreOnlyByItsAnswer : Prop :=
  ∀ s u : State, u.regs = s.regs → u.mem = s.mem →
    ((∃ i, s.fetchDecode = some i ∧ isOutput i = true) → u.sink.answer = s.sink.answer) →
    (∀ t, step s = .next t →
      ∃ t', step u = .next t' ∧ t'.regs = t.regs ∧ t'.mem = t.mem ∧ t'.answered = t.answered) ∧
    (∀ e l, step s = .fault (.error e l) →
      ∃ l', step u = .fault (.error e l') ∧ l'.regs = l.regs ∧ l'.mem = l.mem) ∧
    (step s = .fault .sinkSilent → step u = .fault .sinkSilent)

/-- 40_step.md section 7: a step has no outcome exactly when an output instruction has passed its checks and
the sink never answers. The hang is the spec's own decision D10; its stuck form is notes/assumptions/2.md. -/
def Obligations.SilentSinkExactlyHangs : Prop :=
  ∀ s : State, step s = .fault .sinkSilent ↔
    ∃ i, s.fetchDecode = some i ∧ isOutput i = true ∧ s.ip.toNat + i.len ≤ 4096 ∧
      (∀ f ∈ i.regFields, f < 16) ∧ s.sink.answer = .silent

/-- Every step keeps the arena in its canonical form, and so does a failed step in the state it leaves
(20_memory.md sections 1 and 5; the form is the model's). -/
def Obligations.StepKeepsArenaCanonical : Prop :=
  ∀ s : State, s.Inv →
    (∀ t, step s = .next t → t.Inv) ∧ (∀ e l, step s = .fault (.error e l) → l.Inv)

/-- Two canonical arenas that read alike are the same data (20_memory.md section 1; the form is the
model's). -/
def Obligations.CanonicalArenaIsItsBytes : Prop :=
  ∀ m m' : Memory, m.wf → m'.wf → (∀ a, a < 4096 → m.read a = m'.read a) → m = m'

/-- 42_load_store.md section 3: a store of `v` at `a`, then a load from `a` in any state that still holds
those four bytes, gives `v`. -/
def Obligations.LoadAfterStoreGivesStoredWord : Prop :=
  ∀ (s t u : State) (p v d q : Fin 16), s.Inv → exec (.store p.val v.val) s = .next t →
    (∀ k, k < 4 → u.byteAt ((s.regAfter 3 p).toNat + k) = t.byteAt ((s.regAfter 3 p).toNat + k)) →
    u.ip.toNat + 3 ≤ 4096 → u.regAfter 3 q = s.regAfter 3 p →
    ∃ w, exec (.load d.val q.val) u = .next w ∧ w.reg d = s.regAfter 3 v

/-- 20_memory.md section 7: a fetch at the address of a store, in any later state whose arena is still the
one the store left, sees the stored word. -/
def Obligations.FetchSeesEarlierStore : Prop :=
  ∀ (s t u : State) (p v : Fin 16), s.Inv → exec (.store p.val v.val) s = .next t → u.mem = t.mem →
    u.ip = s.regAfter 3 p → u.fetchWindow = s.regAfter 3 v

/-- 30_encoding.md section 6: the effects of all seven pseudo-instructions of the spec (its own decision
D16): jmp, with its note that a target outside 0 to 4095 fails at the next fetch, jnz, mov, nop, clr, getip and
halt, each with its whole frame. mov and getip rest on the spec's decision D2; how an outcome is shown is
notes/assumptions/3.md. -/
def Obligations.PseudoInstructionsAct : Prop :=
  (∀ (s : State) (imm : BitVec 16), s.ip.toNat + 4 ≤ 4096 →
    ∃ t, exec (.li 0 imm) s = .next t ∧ t.ip.toInt = imm.toInt ∧
      s.leadsTo t (fun i => if i = 0 then t.ip else s.reg i) .continued ∧
      (imm.toInt < 0 ∨ 4096 ≤ imm.toInt → step t = .fault (.error .unknownInstruction t))) ∧
  (∀ (s : State) (r d z : Fin 16), s.ip.toNat + 4 ≤ 4096 →
    (∃ t, exec (.movif 0 r.val z.val) s = .next t ∧
      s.leadsTo t (fun i => if s.regAfter 4 z ≠ 0 ∧ i = 0 then s.regAfter 4 r else s.regAfter 4 i)
        .continued) ∧
    (∃ t, exec (.movif d.val r.val 0) s = .next t ∧
      s.leadsTo t (fun i => if i = d then s.regAfter 4 r else s.regAfter 4 i) .continued) ∧
    (∃ t, exec (.movif r.val r.val r.val) s = .next t ∧ s.leadsTo t (s.regAfter 4) .continued) ∧
    (∃ t, exec (.sub d.val r.val r.val) s = .next t ∧
      s.leadsTo t (fun i => if i = d then 0 else s.regAfter 4 i) .continued) ∧
    (s.regAfter 4 z = 0 →
      ∃ t, exec (.sub d.val 0 z.val) s = .next t ∧
        s.leadsTo t (fun i => if i = d then BitVec.ofNat 32 (s.ip.toNat + 4) else s.regAfter 4 i)
          .continued)) ∧
  (∀ s : State, s.ip.toNat < 4096 →
    ∃ t, exec .exit s = .next t ∧ s.leadsTo t (s.regAfter 1) .terminated)

/-! ### Text -/

/-- 43_output_exit.md section 4 (the character): the bytes of a code point 0 to 255 are those that Lean's
own UTF-8 encoder gives. The reading of the byte as a code point is the spec's own decision D11. -/
def Obligations.OutcBytesAreUtf8 : Prop :=
  ∀ c : Byte, (utf8 c).map BitVec.toNat = (String.utf8EncodeChar (Char.ofNat c.toNat)).map UInt8.toNat

/-! ### Reset, the ports and RUN -/

/-- 70_reset_and_hazards.md rule R240: LOAD gives an arena that is the image and then zeros, and 16 registers
that are 0. -/
def Obligations.LoadPlacesImageAndClears : Prop :=
  ∀ (image : List Byte) (k : Sink), image.length ≤ 4096 →
    ∃ t, loadPort image k = .ok t ∧ (∀ i, t.reg i = 0) ∧
      (∀ a (h : a < image.length), t.byteAt a = image[a]) ∧
      (∀ a, image.length ≤ a → t.byteAt a = 0)

/-- 70_reset_and_hazards.md rule R241: a longer image gives `MemoryOverflow` and no machine, 4096 bytes are
accepted, and the first step of the empty image's machine fails with `UnknownInstruction`. -/
def Obligations.LoadRefusesLongImage : Prop :=
  ∀ (image : List Byte) (k : Sink),
    (4096 < image.length → loadPort image k = .error .memoryOverflow) ∧
    (image.length = 4096 → ∃ t, loadPort image k = .ok t) ∧
    (∃ t, loadPort [] k = .ok t ∧ (∀ a, t.byteAt a = 0) ∧
      step t = .fault (.error .unknownInstruction t))

/-- The arena of the reset state is in its canonical form (10_state.md section 6; the form is the
model's). -/
def Obligations.ResetArenaIsCanonical : Prop := State.reset.Inv

/-- The arena of every machine that LOAD builds is in its canonical form (70_reset_and_hazards.md section 1;
the form is the model's). -/
def Obligations.LoadedArenaIsCanonical : Prop :=
  ∀ (image : List Byte) (k : Sink) (t : State), loadPort image k = .ok t → t.Inv

/-- The values of 10_state.md section 6 in the reset state, the machine of the empty image: every register,
IP included, and every byte 0. The sink there is the model's choice (notes/assumptions/1.md) and no part of
this statement. -/
def Obligations.ResetStateIsZero : Prop :=
  (∀ i, State.reset.reg i = 0) ∧ State.reset.ip = 0 ∧ (∀ a, State.reset.byteAt a = 0)

/-- 10_state.md section 5: SETREG writes the one register named, r0 included, and nothing else; an index of
16 or more is refused. The bound is the spec's own decision D7. -/
def Obligations.SetRegWritesOneRegister : Prop :=
  (∀ (s : State) (j : Fin 16) (v : Word), ∃ t, setRegPort j.val v s = .ok t ∧
    (∀ i, t.reg i = if i = j then v else s.reg i) ∧ t.mem = s.mem ∧ t.sink = s.sink) ∧
  (∀ (s : State) (i : Nat) (v : Word), 16 ≤ i → setRegPort i v s = .error .regIndexOutOfRange)

/-- 10_state.md section 5: the views show the full register file and the full arena. -/
def Obligations.ViewsShowWholeState : Prop :=
  ∀ s : State, (regView s).length = 16 ∧ (memView s).length = 4096 ∧
    (∀ i : Fin 16, (regView s)[i.val]? = some (s.reg i)) ∧
    (∀ a, a < 4096 → (memView s)[a]? = some (s.byteAt a))

/-- 40_step.md section 8: RUN responds `Terminated` or `Error(E)` exactly at the first step whose outcome is
not `Continue`, with that step's outcome and state, and takes no further step. Derived: the core's run has no
step limit, and the number `n` of steps that the reader looks at is the model's choice
(notes/assumptions/11.md). -/
def Obligations.RunEndsAtFirstEndingStep : Prop :=
  (∀ (n : Nat) (s t : State), run n s = .terminated t ↔
    ∃ k u, k < n ∧ Continues k s u ∧ step u = .next t ∧ t.answered = some .terminated) ∧
  (∀ (n : Nat) (s l : State) (e : ErrorKind), run n s = .error e l ↔
    ∃ k u, k < n ∧ Continues k s u ∧ step u = .fault (.error e l))

/-- 40_step.md section 8: a run that has not responded after `n` steps has made `n` steps with outcome
`Continue`, and a response, once given, stays: the core takes no step after it. -/
def Obligations.RunResponseIsFinal : Prop :=
  (∀ (n : Nat) (s u : State), run n s = .running u ↔ Continues n s u) ∧
  (∀ (n m : Nat) (s : State), (∀ u, run n s ≠ .running u) → run (n + m) s = run n s)

/-- 60_exceptions.md section 1: the codes of the five error kinds, the spec's own numbers (D13). -/
def Obligations.ErrorCodesAreOneToFive : Prop :=
  [ErrorKind.memoryOverflow, .regIndexOutOfRange, .writeError, .unknownInstruction,
    .memAddressOutOfRange].map ErrorKind.code = [1, 2, 3, 4, 5]
end

