-- ==== Sys2Proof/Laws/Decode.lean ====
section
/-! SUPPORT. The bytes of a window, and the opcode map read both ways. -/

namespace Sys2Proof

theorem Opcode.ofByte_byte (o : Opcode) : Opcode.ofByte o.byte = some o := by
  cases o <;> decide

theorem Opcode.byte_of_ofByte {b : Byte} {o : Opcode} (h : Opcode.ofByte b = some o) : o.byte = b := by
  simp only [Opcode.ofByte] at h
  repeat' split at h
  all_goals first
    | (cases h; exact Eq.symm ‹_›)
    | cases h

/-- The opcode bytes are 1 to 8 (30_encoding.md rule R81). -/
theorem Opcode.byte_toNat (o : Opcode) : 1 ≤ o.byte.toNat ∧ o.byte.toNat ≤ 8 := by
  cases o <;> decide

/-- An instruction is 1 to 4 bytes long (30_encoding.md rule R70). -/
theorem Opcode.len_bounds (o : Opcode) : 1 ≤ o.len ∧ o.len ≤ Config.window := by
  cases o <;> decide

/-! ### Bytes and words as numbers -/

theorem byteOf_toNat (w : Word) (k : Nat) : (byteOf w k).toNat = w.toNat / 2 ^ (8 * k) % 256 := by
  simp [byteOf, BitVec.extractLsb'_toNat, Nat.shiftRight_eq_div_pow]

theorem append_byte_toNat {n : Nat} (x : BitVec n) (b : Byte) :
    (x ++ b).toNat = x.toNat * 256 + b.toNat := by
  rw [BitVec.toNat_append, Nat.shiftLeft_eq, Nat.mul_comm, ← Nat.two_pow_add_eq_or_of_lt b.isLt,
    Nat.mul_comm]

theorem wordOfBytes_toNat (b0 b1 b2 b3 : Byte) :
    (wordOfBytes b0 b1 b2 b3).toNat =
      b0.toNat + 2 ^ 8 * b1.toNat + 2 ^ 16 * b2.toNat + 2 ^ 24 * b3.toNat := by
  simp only [wordOfBytes, append_byte_toNat]
  omega

@[simp] theorem byteOf_wordOfBytes_zero (b0 b1 b2 b3 : Byte) :
    byteOf (wordOfBytes b0 b1 b2 b3) 0 = b0 := by
  apply BitVec.eq_of_toNat_eq
  rw [byteOf_toNat, wordOfBytes_toNat]
  omega

@[simp] theorem byteOf_wordOfBytes_one (b0 b1 b2 b3 : Byte) :
    byteOf (wordOfBytes b0 b1 b2 b3) 1 = b1 := by
  apply BitVec.eq_of_toNat_eq
  rw [byteOf_toNat, wordOfBytes_toNat]
  omega

@[simp] theorem byteOf_wordOfBytes_two (b0 b1 b2 b3 : Byte) :
    byteOf (wordOfBytes b0 b1 b2 b3) 2 = b2 := by
  apply BitVec.eq_of_toNat_eq
  rw [byteOf_toNat, wordOfBytes_toNat]
  omega

@[simp] theorem byteOf_wordOfBytes_three (b0 b1 b2 b3 : Byte) :
    byteOf (wordOfBytes b0 b1 b2 b3) 3 = b3 := by
  apply BitVec.eq_of_toNat_eq
  rw [byteOf_toNat, wordOfBytes_toNat]
  omega

/-- A word is its four bytes. -/
theorem wordOfBytes_byteOf (w : Word) :
    wordOfBytes (byteOf w 0) (byteOf w 1) (byteOf w 2) (byteOf w 3) = w := by
  apply BitVec.eq_of_toNat_eq
  simp only [wordOfBytes_toNat, byteOf_toNat]
  omega

/-! ### Fields -/

theorem fieldByte_toNat {f : Nat} (h : fieldFits f = true) : (fieldByte f).toNat = f := by
  simp only [fieldFits, decide_eq_true_eq, Config.fieldValues] at h
  simp only [fieldByte, BitVec.toNat_ofNat]
  exact Nat.mod_eq_of_lt h

theorem fieldByte_byte (b : Byte) : fieldByte b.toNat = b := by
  simp [fieldByte]

theorem byte_fits (b : Byte) : fieldFits b.toNat = true := by
  simp only [fieldFits, decide_eq_true_eq, Config.fieldValues]
  exact b.isLt

/-- The immediate is its two bytes, the high one in front (30_encoding.md rule R75). -/
theorem imm_of_bytes (imm : BitVec 16) : imm.extractLsb' 8 8 ++ imm.extractLsb' 0 8 = imm := by
  apply BitVec.eq_of_toNat_eq
  rw [append_byte_toNat]
  simp only [BitVec.extractLsb'_toNat, Nat.shiftRight_eq_div_pow]
  omega

theorem imm_low (lo hi : Byte) : (hi ++ lo : BitVec 16).extractLsb' 0 8 = lo := by
  apply BitVec.eq_of_toNat_eq
  have := append_byte_toNat hi lo
  simp only [BitVec.extractLsb'_toNat, Nat.shiftRight_eq_div_pow, this]
  omega

theorem imm_high (lo hi : Byte) : (hi ++ lo : BitVec 16).extractLsb' 8 8 = hi := by
  apply BitVec.eq_of_toNat_eq
  have := append_byte_toNat hi lo
  simp only [BitVec.extractLsb'_toNat, Nat.shiftRight_eq_div_pow, this]
  omega

/-! ### The decoder at a known opcode -/

/-- The decoder once the opcode byte is known: what each opcode makes of the other three bytes. -/
theorem decode_of_opcode {w : Word} {o : Opcode} (h : byteOf w 0 = o.byte) :
    decode w = .ok (match o with
      | .movif => .movif (byteOf w 1).toNat (byteOf w 2).toNat (byteOf w 3).toNat
      | .store => .store (byteOf w 1).toNat (byteOf w 2).toNat
      | .load => .load (byteOf w 1).toNat (byteOf w 2).toNat
      | .li => .li (byteOf w 1).toNat (byteOf w 3 ++ byteOf w 2)
      | .sub => .sub (byteOf w 1).toNat (byteOf w 2).toNat (byteOf w 3).toNat
      | .outc => .outc (byteOf w 1).toNat
      | .exit => .exit
      | .outn => .outn (byteOf w 1).toNat) := by
  have e : Opcode.ofByte (byteOf w 0) = some o := by rw [h]; exact Opcode.ofByte_byte o
  cases o <;> simp only [decode, e]

/-- What the decoder accepts has an opcode byte, which is the instruction's own. -/
theorem opcode_of_decode {w : Word} {i : Instr} (h : decode w = .ok i) : byteOf w 0 = i.opcode.byte := by
  rcases e : Opcode.ofByte (byteOf w 0) with _ | o
  · simp [decode, e] at h
  · have hb := (Opcode.byte_of_ofByte e).symm
    rw [hb]
    rw [decode_of_opcode hb] at h
    cases h
    cases o <;> rfl

/-- A window whose opcode byte is none of the eight is refused under that byte. -/
theorem decode_illegal {w : Word} (h : ∀ o : Opcode, byteOf w 0 ≠ o.byte) :
    decode w = .error (.illegalOpcode (byteOf w 0)) := by
  rcases e : Opcode.ofByte (byteOf w 0) with _ | o
  · simp only [decode, e]
  · exact absurd (Opcode.byte_of_ofByte e).symm (h o)

end Sys2Proof
end

