-- ==== Sys2Proof/Laws/State.lean ====
section
/-! SUPPORT. One lemma per field per update of State, so that no later proof unfolds a record update. -/

namespace Sys2Proof.Machine.State

@[simp] theorem reg_setReg (s : State) (i j : RegIdx) (v : Word) :
    (s.setReg i v).reg j = if j = i then v else s.reg j := by
  simp only [reg, setReg, Fin.getElem_fin, Vector.getElem_set]
  by_cases h : i.val = j.val
  · simp [h, Fin.ext_iff]
  · have : ¬ j = i := fun e => h (by rw [e])
    simp [h, this]

@[simp] theorem mem_setReg (s : State) (i : RegIdx) (v : Word) : (s.setReg i v).mem = s.mem := rfl
@[simp] theorem sink_setReg (s : State) (i : RegIdx) (v : Word) : (s.setReg i v).sink = s.sink := rfl
@[simp] theorem answered_setReg (s : State) (i : RegIdx) (v : Word) :
    (s.setReg i v).answered = s.answered := rfl

@[simp] theorem regs_setMem (s : State) (m : Memory) : (s.setMem m).regs = s.regs := rfl
@[simp] theorem reg_setMem (s : State) (m : Memory) (i : RegIdx) : (s.setMem m).reg i = s.reg i := rfl
@[simp] theorem ip_setMem (s : State) (m : Memory) : (s.setMem m).ip = s.ip := rfl
@[simp] theorem mem_setMem (s : State) (m : Memory) : (s.setMem m).mem = m := rfl
@[simp] theorem sink_setMem (s : State) (m : Memory) : (s.setMem m).sink = s.sink := rfl
@[simp] theorem answered_setMem (s : State) (m : Memory) : (s.setMem m).answered = s.answered := rfl

@[simp] theorem regs_setSink (s : State) (k : Sink) : (s.setSink k).regs = s.regs := rfl
@[simp] theorem reg_setSink (s : State) (k : Sink) (i : RegIdx) : (s.setSink k).reg i = s.reg i := rfl
@[simp] theorem ip_setSink (s : State) (k : Sink) : (s.setSink k).ip = s.ip := rfl
@[simp] theorem mem_setSink (s : State) (k : Sink) : (s.setSink k).mem = s.mem := rfl
@[simp] theorem sink_setSink (s : State) (k : Sink) : (s.setSink k).sink = k := rfl
@[simp] theorem answered_setSink (s : State) (k : Sink) : (s.setSink k).answered = s.answered := rfl

@[simp] theorem regs_setAnswered (s : State) (o : Option StepAnswer) : (s.setAnswered o).regs = s.regs := rfl
@[simp] theorem reg_setAnswered (s : State) (o : Option StepAnswer) (i : RegIdx) :
    (s.setAnswered o).reg i = s.reg i := rfl
@[simp] theorem ip_setAnswered (s : State) (o : Option StepAnswer) : (s.setAnswered o).ip = s.ip := rfl
@[simp] theorem mem_setAnswered (s : State) (o : Option StepAnswer) : (s.setAnswered o).mem = s.mem := rfl
@[simp] theorem sink_setAnswered (s : State) (o : Option StepAnswer) : (s.setAnswered o).sink = s.sink := rfl
@[simp] theorem answered_setAnswered (s : State) (o : Option StepAnswer) :
    (s.setAnswered o).answered = o := rfl
@[simp] theorem setAnswered_setAnswered (s : State) (o o' : Option StepAnswer) :
    (s.setAnswered o).setAnswered o' = s.setAnswered o' := rfl

theorem setReg_setAnswered (s : State) (o : Option StepAnswer) (i : RegIdx) (v : Word) :
    (s.setAnswered o).setReg i v = (s.setReg i v).setAnswered o := rfl
theorem setMem_setAnswered (s : State) (o : Option StepAnswer) (m : Memory) :
    (s.setAnswered o).setMem m = (s.setMem m).setAnswered o := rfl
theorem setSink_setAnswered (s : State) (o : Option StepAnswer) (k : Sink) :
    (s.setAnswered o).setSink k = (s.setSink k).setAnswered o := rfl
theorem advanced_setAnswered (s : State) (o : Option StepAnswer) (n : Nat) :
    (s.setAnswered o).advanced n = (s.advanced n).setAnswered o := rfl

/-- Two states with the same registers read alike. -/
theorem reg_congr {s u : State} (h : u.regs = s.regs) (i : RegIdx) : u.reg i = s.reg i := by
  simp only [reg, h]

/-- Registers that read alike are the same register file. -/
theorem regs_ext {s u : State} (h : ∀ i, u.reg i = s.reg i) : u.regs = s.regs := by
  apply Vector.ext
  intro i hi
  exact h ⟨i, hi⟩

/-! ### The IP advance -/

theorem reg_advanced (s : State) (n : Nat) (i : RegIdx) :
    (s.advanced n).reg i = if i = 0 then BitVec.ofNat 32 (s.ip.toNat + n) else s.reg i := by
  simp [advanced, setIp, ipReg]

@[simp] theorem mem_advanced (s : State) (n : Nat) : (s.advanced n).mem = s.mem := rfl
@[simp] theorem sink_advanced (s : State) (n : Nat) : (s.advanced n).sink = s.sink := rfl
@[simp] theorem answered_advanced (s : State) (n : Nat) : (s.advanced n).answered = s.answered := rfl

/-- The advance never wraps: it is refused past 4096 (10_state.md rule R27). -/
theorem ip_advanced (s : State) (n : Nat) (h : s.ip.toNat + n ≤ Config.memSize) :
    (s.advanced n).ip.toNat = s.ip.toNat + n := by
  simp only [ip, ipReg, reg_advanced]
  simp only [ip, ipReg, Config.memSize] at h
  simp
  omega

end Sys2Proof.Machine.State
end

