-- ==== Sys2Proof/Laws/Memory.lean ====
section
/-! SUPPORT. The laws of the arena: a read after a write, and that every operation keeps the canonical
form. -/

namespace Sys2Proof.Machine.Memory

/-- The offsets of a canonical list, and of its tail. -/
theorem wf_cons {c : Host.Cell} {m : Memory} :
    Memory.wf (c :: m) ↔
      (∀ d ∈ m, c.1 < d.1) ∧ (c.1 < Config.memSize ∧ c.2 ≠ unlisted) ∧ Memory.wf m := by
  simp only [Memory.wf, List.pairwise_cons, List.forall_mem_cons]
  tauto

theorem wf_nil : Memory.wf [] := by simp [Memory.wf]

/-- An offset without an entry holds `unlisted`. -/
theorem read_of_not_listed {m : Memory} {a : Nat} (h : ∀ c ∈ m, a ≠ c.1) : m.read a = unlisted := by
  induction m with
  | nil => rfl
  | cons c m ih =>
    obtain ⟨k, b⟩ := c
    simp only [List.forall_mem_cons] at h
    simp only [read, if_neg h.1]
    exact ih h.2

theorem read_below {m : Memory} {a : Nat} (h : ∀ c ∈ m, a < c.1) : m.read a = unlisted :=
  read_of_not_listed fun c hc => Nat.ne_of_lt (h c hc)

/-- A canonical arena has no entry past its end. -/
theorem read_past_end {m : Memory} (h : m.wf) {a : Nat} (ha : Config.memSize ≤ a) :
    m.read a = unlisted :=
  read_of_not_listed fun c hc => by have := (h.2 c hc).1; omega

/-- A write changes its own offset and no other. -/
theorem read_write {m : Memory} (h : m.wf) (a : Nat) (b : Byte) (x : Nat) :
    (m.write a b).read x = if x = a then b else m.read x := by
  induction m with
  | nil =>
    by_cases hb : b = unlisted
    · simp [write, hb, read]
    · simp [write, hb, read]
  | cons c m ih =>
    obtain ⟨k, d⟩ := c
    obtain ⟨hlt, -, hm⟩ := wf_cons.1 h
    simp only [write]
    by_cases hak : a < k
    · rw [if_pos hak]
      by_cases hb : b = unlisted
      · rw [if_pos hb]
        by_cases hx : x = a
        · have : ∀ e ∈ (k, d) :: m, a < e.1 := by
            simp only [List.forall_mem_cons]
            exact ⟨hak, fun e he => Nat.lt_trans hak (hlt e he)⟩
          rw [if_pos hx, hx, read_below this, hb]
        · rw [if_neg hx]
      · rw [if_neg hb]; rfl
    · rw [if_neg hak]
      by_cases hk : a = k
      · rw [if_pos hk]
        by_cases hb : b = unlisted
        · rw [if_pos hb]
          by_cases hx : x = a
          · rw [if_pos hx, hx, hk, read_below hlt, hb]
          · have : ¬ x = k := fun e => hx (by rw [e, hk])
            simp [read, hx, this]
        · rw [if_neg hb]
          simp only [read, hk]
          by_cases hx : x = k <;> simp [hx]
      · rw [if_neg hk]
        simp only [read, ih hm]
        by_cases hx : x = k
        · have : ¬ k = a := fun e => hk e.symm
          simp [hx, this]
        · simp [hx]

/-- Where the entries of a written list come from. -/
theorem mem_write {m : Memory} {a : Nat} {b : Byte} {c : Host.Cell} (h : c ∈ m.write a b) :
    (c = (a, b) ∧ b ≠ unlisted) ∨ c ∈ m := by
  induction m with
  | nil =>
    by_cases hb : b = unlisted
    · simp [write, hb] at h
    · simp only [write, if_neg hb, List.mem_singleton] at h
      exact .inl ⟨h, hb⟩
  | cons d m ih =>
    obtain ⟨k, e⟩ := d
    simp only [write] at h
    split at h
    · split at h
      · exact .inr h
      · rcases List.mem_cons.1 h with h | h
        · exact .inl ⟨h, ‹_›⟩
        · exact .inr h
    · split at h
      · split at h
        · exact .inr (List.mem_cons_of_mem _ h)
        · rcases List.mem_cons.1 h with h | h
          · exact .inl ⟨h, ‹_›⟩
          · exact .inr (List.mem_cons_of_mem _ h)
      · rcases List.mem_cons.1 h with h | h
        · exact .inr (by simp [h])
        · rcases ih h with h | h
          · exact .inl h
          · exact .inr (List.mem_cons_of_mem _ h)

/-- A write inside the arena keeps the canonical form. -/
theorem wf_write {m : Memory} (h : m.wf) {a : Nat} (ha : a < Config.memSize) (b : Byte) :
    (m.write a b).wf := by
  induction m with
  | nil =>
    by_cases hb : b = unlisted
    · simpa [write, hb] using wf_nil
    · simp only [write, if_neg hb]
      exact wf_cons.2 ⟨by simp, ⟨ha, hb⟩, wf_nil⟩
  | cons c m ih =>
    obtain ⟨k, d⟩ := c
    obtain ⟨hlt, hc, hm⟩ := wf_cons.1 h
    simp only [write]
    by_cases hak : a < k
    · rw [if_pos hak]
      by_cases hb : b = unlisted
      · rwa [if_pos hb]
      · rw [if_neg hb]
        refine wf_cons.2 ⟨?_, ⟨ha, hb⟩, h⟩
        simp only [List.forall_mem_cons]
        exact ⟨hak, fun e he => Nat.lt_trans hak (hlt e he)⟩
    · rw [if_neg hak]
      by_cases hk : a = k
      · rw [if_pos hk]
        by_cases hb : b = unlisted
        · rwa [if_pos hb]
        · rw [if_neg hb]
          exact wf_cons.2 ⟨fun e he => hk ▸ hlt e he, ⟨ha, hb⟩, hm⟩
      · rw [if_neg hk]
        refine wf_cons.2 ⟨fun e he => ?_, hc, ih hm⟩
        rcases mem_write he with ⟨rfl, -⟩ | he
        · show k < a
          omega
        · exact hlt e he

/-! ### Four bytes -/

theorem wf_write32 {m : Memory} (h : m.wf) {a : Nat} (ha : a + 3 < Config.memSize) (v : Word) :
    (m.write32 a v).wf := by
  simp only [write32]
  exact wf_write (wf_write (wf_write (wf_write h (by omega) _) (by omega) _) (by omega) _) ha _

/-- A 4-byte write changes its own four offsets and no other. -/
theorem read_write32 {m : Memory} (h : m.wf) {a : Nat} (ha : a + 3 < Config.memSize) (v : Word)
    (x : Nat) :
    (m.write32 a v).read x = if a ≤ x ∧ x < a + 4 then byteOf v (x - a) else m.read x := by
  have h0 := wf_write h (a := a) (by omega) (byteOf v 0)
  have h1 := wf_write h0 (a := a + 1) (by omega) (byteOf v 1)
  have h2 := wf_write h1 (a := a + 2) (by omega) (byteOf v 2)
  simp only [write32, read_write h2, read_write h1, read_write h0, read_write h]
  by_cases hx : a ≤ x ∧ x < a + 4
  · obtain ⟨k, rfl⟩ := Nat.exists_eq_add_of_le hx.1
    have : k = 0 ∨ k = 1 ∨ k = 2 ∨ k = 3 := by omega
    rcases this with rfl | rfl | rfl | rfl <;> simp
  · rw [if_neg hx, if_neg (by omega), if_neg (by omega), if_neg (by omega), if_neg (by omega)]

/-! ### Byte lists -/

theorem wf_place {m : Memory} (h : m.wf) (bs : List Byte) (a : Nat)
    (ha : a + bs.length ≤ Config.memSize) : (m.place a bs).wf := by
  induction bs generalizing m a with
  | nil => exact h
  | cons b bs ih =>
    simp only [List.length_cons] at ha
    exact ih (wf_write h (by omega) b) (a + 1) (by omega)

/-- Placed bytes stand in address order from `a` on, and nothing else changes. -/
theorem read_place {m : Memory} (h : m.wf) (bs : List Byte) (a : Nat)
    (ha : a + bs.length ≤ Config.memSize) (x : Nat) :
    (m.place a bs).read x = if a ≤ x then bs.getD (x - a) (m.read x) else m.read x := by
  induction bs generalizing m a with
  | nil => simp [place]
  | cons b bs ih =>
    simp only [List.length_cons] at ha
    simp only [place]
    rw [ih (wf_write h (by omega) b) (a + 1) (by omega), read_write h]
    by_cases h1 : a + 1 ≤ x
    · obtain ⟨k, rfl⟩ := Nat.exists_eq_add_of_le h1
      have e : a + 1 + k - a = k + 1 := by omega
      have ne : ¬ a + 1 + k = a := by omega
      have le : a ≤ a + 1 + k := by omega
      simp only [if_pos h1, if_pos le, e, Nat.add_sub_cancel_left, List.getD_cons_succ, if_neg ne]
    · by_cases h2 : x = a
      · subst h2
        simp
      · rw [if_neg h1, if_neg h2, if_neg (by omega)]

theorem wf_placeInArena {m : Memory} (h : m.wf) (bs : List Byte) (a : Nat) :
    (m.placeInArena a bs).wf := by
  induction bs generalizing m a with
  | nil => exact h
  | cons b bs ih =>
    simp only [placeInArena]
    split
    · exact ih (wf_write h ‹_› b) (a + 1)
    · exact ih h (a + 1)

theorem wf_ofImage {image : List Byte} (h : image.length ≤ Config.memSize) :
    (Memory.ofImage image).wf :=
  wf_place wf_nil image 0 (by omega)

end Sys2Proof.Machine.Memory

/-- The arena of the reset state lists nothing. -/
theorem Sys2Proof.Machine.State.reset_mem : Sys2Proof.Machine.State.reset.mem = [] := rfl
end

