-- ==== Sys2Proof/Laws/Ops.lean ====
section
/-! SUPPORT. What each shared phase of a step can do, said once: as an equation where its check passes and
where it fails, and as an inversion. -/

namespace Sys2Proof.Machine

theorem State.regAfter_eq (s : State) (n : Nat) (i : RegIdx) : s.regAfter n i = (s.advanced n).reg i :=
  (State.reg_advanced s n i).symm

theorem State.ipAdvancedOnly_advanced (s : State) (n : Nat) : s.ipAdvancedOnly n (s.advanced n) :=
  ⟨State.reg_advanced s n, rfl, rfl, rfl⟩

/-- What a completed register write leads to. -/
theorem State.leadsTo_setReg (s : State) (n : Nat) (d : RegIdx) (v : Word) (o : StepAnswer) :
    s.leadsTo (((s.advanced n).setReg d v).setAnswered (some o))
      (fun i => if i = d then v else s.regAfter n i) o :=
  ⟨fun i => by simp [State.regAfter_eq], fun _ => rfl, rfl, rfl⟩

/-- What a completed instruction without a write leads to. -/
theorem State.leadsTo_advanced (s : State) (n : Nat) (o : StepAnswer) :
    s.leadsTo ((s.advanced n).setAnswered (some o)) (s.regAfter n) o :=
  ⟨fun i => by simp [State.regAfter_eq], fun _ => rfl, rfl, rfl⟩

/-! ### The IP advance -/

theorem withAdvance_ok {n : Nat} {s : State} (h : s.ip.toNat + n ≤ Config.memSize) (k : State → Result) :
    withAdvance n s k = k (s.advanced n) := by
  simp [withAdvance, advanceOK, h]

theorem withAdvance_fail {n : Nat} {s : State} (h : Config.memSize < s.ip.toNat + n)
    (k : State → Result) : withAdvance n s k = .fault (.error .memAddressOutOfRange s) := by
  simp [withAdvance, advanceOK, Nat.not_le.2 h, raise]

/-! ### The register fields -/

theorem withReg_ok {f : Nat} {s : State} (h : f < Config.nregs) (k : RegIdx → Result) :
    withReg f s k = k ⟨f, h⟩ := by
  simp [withReg, h]

@[simp] theorem withReg_val (i : RegIdx) (s : State) (k : RegIdx → Result) :
    withReg i.val s k = k i :=
  withReg_ok i.isLt k

theorem withReg_fail {f : Nat} {s : State} (h : Config.nregs ≤ f) (k : RegIdx → Result) :
    withReg f s k = .fault (.error .memAddressOutOfRange s) := by
  simp [withReg, Nat.not_lt.2 h, raise]

/-- Two fields: one of 16 or more fails the instruction, whichever it is (rule R108). -/
theorem withReg2_fail {f g : Nat} {s : State} (h : Config.nregs ≤ f ∨ Config.nregs ≤ g)
    (k : RegIdx → RegIdx → Result) :
    (withReg f s fun i => withReg g s fun j => k i j) = .fault (.error .memAddressOutOfRange s) := by
  by_cases hf : f < Config.nregs
  · rw [withReg_ok hf]
    exact withReg_fail (h.resolve_left (Nat.not_le.2 hf)) _
  · exact withReg_fail (Nat.not_lt.1 hf) _

/-- Three fields, likewise. -/
theorem withReg3_fail {f g e : Nat} {s : State}
    (h : Config.nregs ≤ f ∨ Config.nregs ≤ g ∨ Config.nregs ≤ e) (k : RegIdx → RegIdx → RegIdx → Result) :
    (withReg f s fun i => withReg g s fun j => withReg e s fun l => k i j l) =
      .fault (.error .memAddressOutOfRange s) := by
  by_cases hf : f < Config.nregs
  · rw [withReg_ok hf]
    exact withReg2_fail (h.resolve_left (Nat.not_le.2 hf)) _
  · exact withReg_fail (Nat.not_lt.1 hf) _

/-- A field that exists is a register index. -/
theorem regIdx_of_lt {f : Nat} (h : f < Config.nregs) : ∃ i : RegIdx, f = i.val := ⟨⟨f, h⟩, rfl⟩

/-! ### The data span -/

theorem withSpan_ok {a : Word} {s : State} (h : a.toNat ≤ 4092) (k : Nat → Result) :
    withSpan a s k = k a.toNat := by
  have e : spanOK a.toNat = true := by
    simp only [spanOK, Config.memSize, decide_eq_true_eq]
    omega
  rw [withSpan, if_pos e]

theorem withSpan_fail {a : Word} {s : State} (h : 4092 < a.toNat) (k : Nat → Result) :
    withSpan a s k = .fault (.error .memAddressOutOfRange s) := by
  have e : ¬ spanOK a.toNat = true := by
    simp only [spanOK, Config.memSize, decide_eq_true_eq]
    omega
  rw [withSpan, if_neg e, raise]

/-! ### The SINK port -/

theorem sinkWrite_ok {bs : List Byte} {s : State} (h : s.sink.answer = .ok) :
    sinkWrite bs s = .next ((s.setSink (s.sink.take bs)).setAnswered (some .continued)) := by
  simp [sinkWrite, h, finish]

theorem sinkWrite_fail {bs : List Byte} {s : State} {k : Nat} (h : s.sink.answer = .fail k) :
    sinkWrite bs s = .fault (.error .writeError (s.setSink (s.sink.take (bs.take k)))) := by
  simp [sinkWrite, h, raise]

theorem sinkWrite_silent {bs : List Byte} {s : State} (h : s.sink.answer = .silent) :
    sinkWrite bs s = .fault .sinkSilent := by
  simp [sinkWrite, h]

@[simp] theorem Sink.taken_take (k : Sink) (bs : List Byte) : (k.take bs).taken = k.taken ++ bs := rfl
@[simp] theorem Sink.answers_take (k : Sink) (bs : List Byte) :
    (k.take bs).answers = k.answers.tail := rfl
@[simp] theorem Sink.thereafter_take (k : Sink) (bs : List Byte) :
    (k.take bs).thereafter = k.thereafter := rfl

end Sys2Proof.Machine
end

