-- ==== Sys2Proof/Laws/Text.lean ====
section
/-! SUPPORT. How many bytes the output instructions send (20_memory.md rule R61). -/

namespace Sys2Proof.Machine

theorem utf8_length (c : Byte) : 1 ≤ (utf8 c).length ∧ (utf8 c).length ≤ 2 := by
  unfold utf8
  split <;> simp

theorem digits_length_le (fuel m : Nat) : (digits fuel m).length ≤ fuel := by
  induction fuel generalizing m with
  | zero => simp [digits]
  | succ fuel ih =>
    simp only [digits]
    split
    · simp
    · simpa using ih (m / 10)

theorem digits_length_pos (fuel m : Nat) : 1 ≤ (digits (fuel + 1) m).length := by
  simp only [digits]
  split <;> simp

theorem decimal_length (n : Int) : 1 ≤ (decimal n).length ∧ (decimal n).length ≤ 11 := by
  have h1 := digits_length_le maxDigits n.natAbs
  have h2 := digits_length_pos 9 n.natAbs
  simp only [maxDigits] at h1
  unfold decimal
  split
  · simp only [List.length_cons, maxDigits]
    omega
  · exact ⟨h2, Nat.le_succ_of_le h1⟩

end Sys2Proof.Machine
end

