-- ==== Sys2Proof/Laws/Exec.lean ====
section
/-! SUPPORT. Each instruction's meaning where all its checks pass, as one equation, and `step` where a window
decodes and where it does not. Registers are read in the advanced state. -/

namespace Sys2Proof.Machine

theorem execMovif_ok {s : State} (d r c : RegIdx) (h : s.ip.toNat + 4 ≤ Config.memSize) :
    execMovif d.val r.val c.val s =
      .next ((if nz ((s.advanced 4).reg c) then (s.advanced 4).setReg d ((s.advanced 4).reg r)
        else s.advanced 4).setAnswered (some .continued)) := by
  unfold execMovif
  refine (withAdvance_ok h _).trans ?_
  simp only [withReg_val, finish]

theorem execLi_ok {s : State} (d : RegIdx) (imm : BitVec 16) (h : s.ip.toNat + 4 ≤ Config.memSize) :
    execLi d.val imm s =
      .next (((s.advanced 4).setReg d (sext16 imm)).setAnswered (some .continued)) := by
  unfold execLi
  refine (withAdvance_ok h _).trans ?_
  simp only [withReg_val, finish]

theorem execSub_ok {s : State} (d a b : RegIdx) (h : s.ip.toNat + 4 ≤ Config.memSize) :
    execSub d.val a.val b.val s =
      .next (((s.advanced 4).setReg d (sub32 ((s.advanced 4).reg a) ((s.advanced 4).reg b))).setAnswered
        (some .continued)) := by
  unfold execSub
  refine (withAdvance_ok h _).trans ?_
  simp only [withReg_val, finish]

theorem execStore_ok {s : State} (p v : RegIdx) (h : s.ip.toNat + 3 ≤ Config.memSize)
    (ha : ((s.advanced 3).reg p).toNat ≤ 4092) :
    execStore p.val v.val s =
      .next (((s.advanced 3).setMem (s.mem.write32 ((s.advanced 3).reg p).toNat
        ((s.advanced 3).reg v))).setAnswered (some .continued)) := by
  unfold execStore
  refine (withAdvance_ok h _).trans ?_
  simp only [withReg_val, finish]
  exact withSpan_ok ha _

theorem execLoad_ok {s : State} (d p : RegIdx) (h : s.ip.toNat + 3 ≤ Config.memSize)
    (ha : ((s.advanced 3).reg p).toNat ≤ 4092) :
    execLoad d.val p.val s =
      .next (((s.advanced 3).setReg d (s.mem.read32 ((s.advanced 3).reg p).toNat)).setAnswered
        (some .continued)) := by
  unfold execLoad
  refine (withAdvance_ok h _).trans ?_
  simp only [withReg_val, finish]
  exact withSpan_ok ha _

theorem execOutc_ok {s : State} (r : RegIdx) (h : s.ip.toNat + 2 ≤ Config.memSize) :
    execOutc r.val s = sinkWrite (utf8 (byteOf ((s.advanced 2).reg r) 0)) (s.advanced 2) := by
  unfold execOutc
  refine (withAdvance_ok h _).trans ?_
  simp only [withReg_val]

theorem execExit_ok {s : State} (h : s.ip.toNat + 1 ≤ Config.memSize) :
    execExit s = .next ((s.advanced 1).setAnswered (some .terminated)) := by
  unfold execExit
  exact withAdvance_ok h _

theorem execOutn_ok {s : State} (r : RegIdx) (h : s.ip.toNat + 2 ≤ Config.memSize) :
    execOutn r.val s = sinkWrite (decimal (s32 ((s.advanced 2).reg r))) (s.advanced 2) := by
  unfold execOutn
  refine (withAdvance_ok h _).trans ?_
  simp only [withReg_val]

/-! ### Where an operand check fails -/

theorem execMovif_operand_fails {s : State} {rd rs rc : Nat} (h : s.ip.toNat + 4 ≤ Config.memSize)
    (hf : Config.nregs ≤ rd ∨ Config.nregs ≤ rs ∨ Config.nregs ≤ rc) :
    execMovif rd rs rc s = .fault (.error .memAddressOutOfRange (s.advanced 4)) := by
  unfold execMovif
  exact (withAdvance_ok h _).trans (withReg3_fail hf _)

theorem execLi_operand_fails {s : State} {ri : Nat} (imm : BitVec 16)
    (h : s.ip.toNat + 4 ≤ Config.memSize) (hf : Config.nregs ≤ ri) :
    execLi ri imm s = .fault (.error .memAddressOutOfRange (s.advanced 4)) := by
  unfold execLi
  exact (withAdvance_ok h _).trans (withReg_fail hf _)

theorem execSub_operand_fails {s : State} {rd ra rb : Nat} (h : s.ip.toNat + 4 ≤ Config.memSize)
    (hf : Config.nregs ≤ rd ∨ Config.nregs ≤ ra ∨ Config.nregs ≤ rb) :
    execSub rd ra rb s = .fault (.error .memAddressOutOfRange (s.advanced 4)) := by
  unfold execSub
  exact (withAdvance_ok h _).trans (withReg3_fail hf _)

theorem execStore_operand_fails {s : State} {ri rj : Nat} (h : s.ip.toNat + 3 ≤ Config.memSize)
    (hf : Config.nregs ≤ ri ∨ Config.nregs ≤ rj) :
    execStore ri rj s = .fault (.error .memAddressOutOfRange (s.advanced 3)) := by
  unfold execStore
  exact (withAdvance_ok h _).trans (withReg2_fail hf _)

theorem execLoad_operand_fails {s : State} {ri rj : Nat} (h : s.ip.toNat + 3 ≤ Config.memSize)
    (hf : Config.nregs ≤ ri ∨ Config.nregs ≤ rj) :
    execLoad ri rj s = .fault (.error .memAddressOutOfRange (s.advanced 3)) := by
  unfold execLoad
  exact (withAdvance_ok h _).trans (withReg2_fail hf _)

theorem execStore_span_fails {s : State} (p v : RegIdx) (h : s.ip.toNat + 3 ≤ Config.memSize)
    (ha : 4092 < ((s.advanced 3).reg p).toNat) :
    execStore p.val v.val s = .fault (.error .memAddressOutOfRange (s.advanced 3)) := by
  unfold execStore
  refine (withAdvance_ok h _).trans ?_
  simp only [withReg_val]
  exact withSpan_fail ha _

theorem execLoad_span_fails {s : State} (d p : RegIdx) (h : s.ip.toNat + 3 ≤ Config.memSize)
    (ha : 4092 < ((s.advanced 3).reg p).toNat) :
    execLoad d.val p.val s = .fault (.error .memAddressOutOfRange (s.advanced 3)) := by
  unfold execLoad
  refine (withAdvance_ok h _).trans ?_
  simp only [withReg_val]
  exact withSpan_fail ha _

theorem execOutc_operand_fails {s : State} {ri : Nat} (h : s.ip.toNat + 2 ≤ Config.memSize)
    (hf : Config.nregs ≤ ri) :
    execOutc ri s = .fault (.error .memAddressOutOfRange (s.advanced 2)) := by
  unfold execOutc
  exact (withAdvance_ok h _).trans (withReg_fail hf _)

theorem execOutn_operand_fails {s : State} {ri : Nat} (h : s.ip.toNat + 2 ≤ Config.memSize)
    (hf : Config.nregs ≤ ri) :
    execOutn ri s = .fault (.error .memAddressOutOfRange (s.advanced 2)) := by
  unfold execOutn
  exact (withAdvance_ok h _).trans (withReg_fail hf _)

/-! ### What an instruction can do -/

/-- What a completed instruction that is no output leaves: the sink untouched, the answer its own, the arena
untouched but by a store, and every register but the destination as the advance left it. -/
def Completes (i : Instr) (s t : State) : Prop :=
  t.sink = s.sink ∧ t.answered = some (if i = .exit then .terminated else .continued) ∧
    (isStore i = false → t.mem = s.mem) ∧ (s.Inv → t.Inv) ∧
    ∀ r : RegIdx, destField i ≠ some r.val → t.reg r = (s.advanced i.len).reg r

/-- All checks before the sink pass: the advance, every register field, the data span. -/
def Checked (i : Instr) (s : State) : Prop :=
  s.ip.toNat + i.len ≤ Config.memSize ∧ (∀ f ∈ i.regFields, f < Config.nregs) ∧ ¬ spanFails i s

/-- The three ways of an instruction: a check fails, it completes, or it hands its bytes to the sink. -/
inductive ExecCase (i : Instr) (s : State) : Prop where
  | advanceFails (h : Config.memSize < s.ip.toNat + i.len)
      (e : exec i s = .fault (.error .memAddressOutOfRange s))
  | operandFails (h : s.ip.toNat + i.len ≤ Config.memSize)
      (hf : (∃ f ∈ i.regFields, Config.nregs ≤ f) ∨ spanFails i s)
      (e : exec i s = .fault (.error .memAddressOutOfRange (s.advanced i.len)))
  | completes (h : Checked i s) (ho : isOutput i = false) (t : State) (ht : Completes i s t)
      (e : exec i s = .next t)
  | outputs (h : Checked i s) (ho : isOutput i = true) (bs : List Byte) (h1 : 1 ≤ bs.length)
      (h11 : bs.length ≤ 11) (e : exec i s = sinkWrite bs (s.advanced i.len))

/-- An instruction without a data access cannot fail the span check. -/
theorem not_spanFails {i : Instr} (h : addrField i = none) (s : State) : ¬ spanFails i s := by
  rintro ⟨f, hf, -⟩
  simp [h] at hf

theorem spanFails_iff {i : Instr} {p : RegIdx} (h : addrField i = some p.val) (s : State) :
    spanFails i s ↔ 4092 < ((s.advanced i.len).reg p).toNat := by
  constructor
  · rintro ⟨f, hf, hl⟩
    rw [h, Option.some_inj] at hf
    rw [← Fin.ext hf, State.regAfter_eq] at hl
    omega
  · intro hl
    exact ⟨p, h, by rw [State.regAfter_eq]; omega⟩

/-- A register write at the end of an instruction completes it. -/
theorem completes_setReg {i : Instr} {s : State} {d : RegIdx} {v : Word} (hd : destField i = some d.val)
    (he : i ≠ .exit) :
    Completes i s (((s.advanced i.len).setReg d v).setAnswered (some .continued)) := by
  refine ⟨rfl, by simp [he], fun _ => rfl, id, fun r hr => ?_⟩
  have : ¬ r = d := fun e => hr (by rw [hd, e])
  simp [this]

/-- An advance past the arena fails every instruction with nothing changed (rule R106). -/
theorem exec_advance_fails {i : Instr} {s : State} (h : Config.memSize < s.ip.toNat + i.len) :
    exec i s = .fault (.error .memAddressOutOfRange s) := by
  cases i <;>
    simp only [exec, execMovif, execStore, execLoad, execLi, execSub, execOutc, execExit, execOutn] <;>
    exact withAdvance_fail h _

theorem exec_cases (i : Instr) (s : State) : ExecCase i s := by
  by_cases h : s.ip.toNat + i.len ≤ Config.memSize
  · cases i with
    | movif rd rs rc =>
      by_cases hf : rd < Config.nregs ∧ rs < Config.nregs ∧ rc < Config.nregs
      · obtain ⟨d, rfl⟩ := regIdx_of_lt hf.1
        obtain ⟨x, rfl⟩ := regIdx_of_lt hf.2.1
        obtain ⟨y, rfl⟩ := regIdx_of_lt hf.2.2
        refine .completes ⟨h, by simp [Instr.regFields], not_spanFails rfl s⟩ rfl _ ?_ (execMovif_ok d x y h)
        split
        · exact completes_setReg rfl (by simp)
        · exact ⟨rfl, rfl, fun _ => rfl, id, fun _ _ => rfl⟩
      · have hf : Config.nregs ≤ rd ∨ Config.nregs ≤ rs ∨ Config.nregs ≤ rc := by omega
        exact .operandFails h (.inl (by simpa [Instr.regFields] using hf)) (execMovif_operand_fails h hf)
    | store ri rj =>
      by_cases hf : ri < Config.nregs ∧ rj < Config.nregs
      · obtain ⟨x, rfl⟩ := regIdx_of_lt hf.1
        obtain ⟨y, rfl⟩ := regIdx_of_lt hf.2
        have hs := spanFails_iff (i := .store x.val y.val) (p := x) rfl s
        by_cases ha : ((s.advanced 3).reg x).toNat ≤ 4092
        · refine .completes ⟨h, by simp [Instr.regFields], fun e => absurd (hs.1 e) (Nat.not_lt.2 ha)⟩ rfl _
            ?_ (execStore_ok x y h ha)
          refine ⟨rfl, rfl, by simp [isStore], fun hw => ?_, fun _ _ => rfl⟩
          exact Memory.wf_write32 hw (by simp only [Config.memSize]; omega) _
        · have ha := Nat.not_le.1 ha
          exact .operandFails h (.inr (hs.2 ha)) (execStore_span_fails x y h ha)
      · have hf : Config.nregs ≤ ri ∨ Config.nregs ≤ rj := by omega
        exact .operandFails h (.inl (by simpa [Instr.regFields] using hf)) (execStore_operand_fails h hf)
    | load ri rj =>
      by_cases hf : ri < Config.nregs ∧ rj < Config.nregs
      · obtain ⟨x, rfl⟩ := regIdx_of_lt hf.1
        obtain ⟨y, rfl⟩ := regIdx_of_lt hf.2
        have hs := spanFails_iff (i := .load x.val y.val) (p := y) rfl s
        by_cases ha : ((s.advanced 3).reg y).toNat ≤ 4092
        · refine .completes ⟨h, by simp [Instr.regFields], fun e => absurd (hs.1 e) (Nat.not_lt.2 ha)⟩ rfl _
            ?_ (execLoad_ok x y h ha)
          exact completes_setReg rfl (by simp)
        · have ha := Nat.not_le.1 ha
          exact .operandFails h (.inr (hs.2 ha)) (execLoad_span_fails x y h ha)
      · have hf : Config.nregs ≤ ri ∨ Config.nregs ≤ rj := by omega
        exact .operandFails h (.inl (by simpa [Instr.regFields] using hf)) (execLoad_operand_fails h hf)
    | li ri imm =>
      by_cases hf : ri < Config.nregs
      · obtain ⟨d, rfl⟩ := regIdx_of_lt hf
        exact .completes ⟨h, by simp [Instr.regFields], not_spanFails rfl s⟩ rfl _
          (completes_setReg rfl (by simp)) (execLi_ok d imm h)
      · have hf := Nat.not_lt.1 hf
        exact .operandFails h (.inl (by simpa [Instr.regFields] using hf)) (execLi_operand_fails imm h hf)
    | sub rd ra rb =>
      by_cases hf : rd < Config.nregs ∧ ra < Config.nregs ∧ rb < Config.nregs
      · obtain ⟨d, rfl⟩ := regIdx_of_lt hf.1
        obtain ⟨x, rfl⟩ := regIdx_of_lt hf.2.1
        obtain ⟨y, rfl⟩ := regIdx_of_lt hf.2.2
        refine .completes ⟨h, by simp [Instr.regFields], not_spanFails rfl s⟩ rfl _ ?_ (execSub_ok d x y h)
        exact completes_setReg rfl (by simp)
      · have hf : Config.nregs ≤ rd ∨ Config.nregs ≤ ra ∨ Config.nregs ≤ rb := by omega
        exact .operandFails h (.inl (by simpa [Instr.regFields] using hf)) (execSub_operand_fails h hf)
    | outc ri =>
      by_cases hf : ri < Config.nregs
      · obtain ⟨r, rfl⟩ := regIdx_of_lt hf
        have hl := utf8_length (byteOf ((s.advanced 2).reg r) 0)
        exact .outputs ⟨h, by simp [Instr.regFields], not_spanFails rfl s⟩ rfl _ hl.1
          (Nat.le_trans hl.2 (by decide)) (execOutc_ok r h)
      · have hf := Nat.not_lt.1 hf
        exact .operandFails h (.inl (by simpa [Instr.regFields] using hf)) (execOutc_operand_fails h hf)
    | exit =>
      refine .completes ⟨h, by simp [Instr.regFields], not_spanFails rfl s⟩ rfl _ ?_ (execExit_ok h)
      exact ⟨rfl, rfl, fun _ => rfl, id, fun _ _ => rfl⟩
    | outn ri =>
      by_cases hf : ri < Config.nregs
      · obtain ⟨r, rfl⟩ := regIdx_of_lt hf
        have hl := decimal_length (s32 ((s.advanced 2).reg r))
        exact .outputs ⟨h, by simp [Instr.regFields], not_spanFails rfl s⟩ rfl _ hl.1
          (Nat.le_trans hl.2 (by decide)) (execOutn_ok r h)
      · have hf := Nat.not_lt.1 hf
        exact .operandFails h (.inl (by simpa [Instr.regFields] using hf)) (execOutn_operand_fails h hf)
  · have h := Nat.not_le.1 h
    exact .advanceFails h (exec_advance_fails h)

/-! ### The step -/

theorem State.fetchDecode_eq_some {s : State} {i : Instr} :
    s.fetchDecode = some i ↔ s.ip.toNat < Config.memSize ∧ decode s.fetchWindow = .ok i := by
  by_cases h : s.ip.toNat < Config.memSize
  · rcases e : decode s.fetchWindow with r | j <;> simp [fetchDecode, fetchOK, h, e, Except.toOption]
  · simp [fetchDecode, fetchOK, h]

theorem step_of_fetchDecode {s : State} {i : Instr} (h : s.fetchDecode = some i) : step s = exec i s := by
  simp only [step, h]

theorem step_of_no_instruction {s : State} (h : s.fetchDecode = none) :
    step s = .fault (.error .unknownInstruction s) := by
  simp only [step, h, raise]

end Sys2Proof.Machine
end

