-- ==== Sys2Proof/Laws/PerInstr.lean ====
section
/-! SUPPORT. One lemma per constructor of `Instr`, for the statements over all instructions as syntax. -/

/-- An instruction's encoding is as long as its opcode says, 1 to 4 bytes, and begins with its opcode byte
(30_encoding.md rules R70 and R72). -/
def Sys2Proof.Laws.EncodedForm.Statement (i : Sys2Proof.Instr) : Prop :=
  (Sys2Proof.encode i).length = i.len ∧ 1 ≤ i.len ∧ i.len ≤ Sys2Proof.Config.window ∧
    (Sys2Proof.encode i).head? = some i.opcode.byte

namespace Sys2Proof.Laws.EncodedForm

theorem movif (rd rs rc : Nat) : Statement (.movif rd rs rc) :=
  ⟨rfl, (Opcode.len_bounds _).1, (Opcode.len_bounds _).2, rfl⟩
theorem store (ri rj : Nat) : Statement (.store ri rj) :=
  ⟨rfl, (Opcode.len_bounds _).1, (Opcode.len_bounds _).2, rfl⟩
theorem load (ri rj : Nat) : Statement (.load ri rj) :=
  ⟨rfl, (Opcode.len_bounds _).1, (Opcode.len_bounds _).2, rfl⟩
theorem li (ri : Nat) (imm : BitVec 16) : Statement (.li ri imm) :=
  ⟨rfl, (Opcode.len_bounds _).1, (Opcode.len_bounds _).2, rfl⟩
theorem sub (rd ra rb : Nat) : Statement (.sub rd ra rb) :=
  ⟨rfl, (Opcode.len_bounds _).1, (Opcode.len_bounds _).2, rfl⟩
theorem outc (ri : Nat) : Statement (.outc ri) :=
  ⟨rfl, (Opcode.len_bounds _).1, (Opcode.len_bounds _).2, rfl⟩
theorem exit : Statement .exit :=
  ⟨rfl, (Opcode.len_bounds _).1, (Opcode.len_bounds _).2, rfl⟩
theorem outn (ri : Nat) : Statement (.outn ri) :=
  ⟨rfl, (Opcode.len_bounds _).1, (Opcode.len_bounds _).2, rfl⟩

end Sys2Proof.Laws.EncodedForm
end

