-- ==== Sys2Proof/Tests/Slice0.lean ====
section
/-! SUPPORT. The model's own tests. Expected results come from the spec: the step vectors of
95_test_vectors.md (named by their ids) and the encodings of 30_encoding.md. The `witness_` theorems show
that the hypotheses of each obligation are met together, clause by clause, at a boundary where there is
one. -/

namespace Sys2Proof.Tests

open Sys2Proof.Machine

/-! ### Helpers -/

/-- A start state of 95_test_vectors.md section 2: `bytes` at `ip`, the listed registers set, all else 0. -/
def start (ip : Word) (rs : List (RegIdx × Word)) (bytes : List Byte) : State :=
  ((rs.foldl (fun s p => s.setReg p.1 p.2) State.reset).setIp ip).setMem
    (Memory.place [] ip.toNat bytes)

/-- A start state with four more bytes of memory. -/
def startMem (ip : Word) (rs : List (RegIdx × Word)) (bytes : List Byte) (a : Nat) (more : List Byte) :
    State :=
  (start ip rs bytes).setMem (Memory.place (start ip rs bytes).mem a more)

/-- The same state before a sink that gives the answer `a` next. -/
def answering (a : SinkAnswer) (s : State) : State :=
  s.setSink { taken := [], answers := [a], thereafter := .ok }

/-- The next state, if there is one. -/
def next? : Result → Option State
  | .next t => some t
  | .fault _ => none
  | .refused _ => none

/-- The error kind and the state left, if the step failed. -/
def error? : Result → Option (ErrorKind × State)
  | .next _ => none
  | .fault (.error e l) => some (e, l)
  | .fault .sinkSilent => none
  | .refused _ => none

/-- The registers named, in the next state. -/
def regs? (s : State) (is : List RegIdx) : Option (List Word) := (next? (step s)).map fun t => is.map t.reg

/-- What the sink has taken in the next state. -/
def sent? (s : State) : Option (List Byte) := (next? (step s)).map fun t => t.sink.taken

/-- The error of the step and the IP it leaves. -/
def errorIp? (s : State) : Option (ErrorKind × Word) := (error? (step s)).map fun p => (p.1, p.2.ip)

/-! ### WellFormed: each check refuses an ill-formed term, and 255 still fits -/

theorem test_wellFormed_refuses_movif :
    Instr.wellFormed (.movif 256 0 0) = false ∧ Instr.wellFormed (.movif 0 256 0) = false ∧
      Instr.wellFormed (.movif 0 0 256) = false ∧ Instr.wellFormed (.movif 255 255 255) = true := by decide

theorem test_wellFormed_refuses_store_load :
    Instr.wellFormed (.store 256 0) = false ∧ Instr.wellFormed (.store 0 256) = false ∧
      Instr.wellFormed (.load 256 0) = false ∧ Instr.wellFormed (.load 0 256) = false ∧
      Instr.wellFormed (.store 255 255) = true ∧ Instr.wellFormed (.load 255 255) = true := by decide

theorem test_wellFormed_refuses_sub :
    Instr.wellFormed (.sub 256 0 0) = false ∧ Instr.wellFormed (.sub 0 256 0) = false ∧
      Instr.wellFormed (.sub 0 0 256) = false ∧ Instr.wellFormed (.sub 255 255 255) = true := by decide

theorem test_wellFormed_refuses_one_field :
    Instr.wellFormed (.li 256 0xFFFF) = false ∧ Instr.wellFormed (.outc 256) = false ∧
      Instr.wellFormed (.outn 256) = false ∧ Instr.wellFormed (.li 255 0xFFFF) = true ∧
      Instr.wellFormed .exit = true := by decide

/-! ### Decode: words written out from the formats of 30_encoding.md, byte 3 first -/

/-- Rule R73: `01 rd rs rc` with rd = 0, rs = 6, rc = 1 (rule R89). -/
theorem test_decode_movif :
    decodeTableWord 32 0b00000001_00000110_00000000_00000001 = some (.movif 0 6 1) := by decide

/-- Rule R74: `02 ri rj` with ri = 16, rj = 1 (rule R89: it decodes). -/
theorem test_decode_store :
    decodeTableWord 24 0b00000001_00010000_00000010 = some (.store 16 1) := by decide

/-- Rule R74: `03 ri rj` with ri = 3, rj = 1 (vector LD1). -/
theorem test_decode_load :
    decodeTableWord 24 0b00000001_00000011_00000011 = some (.load 3 1) := by decide

/-- Rule R75: `04 ri lo hi` with ri = 1, lo = 0x2E, hi = 0xFB (`li r1, -1234`). -/
theorem test_decode_li :
    decodeTableWord 32 0b11111011_00101110_00000001_00000100 = some (.li 1 0xFB2E) := by decide

/-- Rule R73: `05 rd ra rb` with rd = 3, ra = 1, rb = 2 (rule R89). -/
theorem test_decode_sub :
    decodeTableWord 32 0b00000010_00000001_00000011_00000101 = some (.sub 3 1 2) := by decide

/-- Rule R76: `06 ri` with ri = 4 (vector OC1). -/
theorem test_decode_outc : decodeTableWord 16 0b00000100_00000110 = some (.outc 4) := by decide

/-- Rule R77: `07`; the bytes after it are not read (vector EX2). -/
theorem test_decode_exit :
    decodeTableWord 8 0b00000111 = some .exit ∧ decodeTableWord 32 0xFFFFFF07 = some .exit := by decide

/-- Rule R76: `08 ri` with ri = 3 (rule R89). -/
theorem test_decode_outn : decodeTableWord 16 0b00000011_00001000 = some (.outn 3) := by decide

/-- Rule R83: 0x00 and 0x09 to 0xFF are illegal, under their own byte. -/
theorem test_decode_illegal :
    decodeBytes [0x00] = .error (.illegalOpcode 0x00) ∧ decodeBytes [0x09] = .error (.illegalOpcode 0x09) ∧
      decodeBytes [0xFF, 1, 2, 3] = .error (.illegalOpcode 0xFF) := by
  refine ⟨?_, ?_, ?_⟩ <;> rfl

/-- Rule R87: the byte listings of `li r1, -1234` and `movif r0, r6, r1`. -/
theorem test_encode :
    encode (.li 1 0xFB2E) = [0x04, 0x01, 0x2E, 0xFB] ∧ encode (.movif 0 6 1) = [0x01, 0x00, 0x06, 0x01] := by
  decide

/-! ### Fetch, decode, advance -/

/-- FD1 and FD2: an IP past the arena. -/
theorem test_fd1_fd2_fetch_range :
    errorIp? (start 4096 [] []) = some (.unknownInstruction, 4096) ∧
      errorIp? (start 0xFFFFFFFF [] []) = some (.unknownInstruction, 0xFFFFFFFF) := by decide

/-- FD8: an instruction that would run past the arena leaves IP. -/
theorem test_fd8_advance_fails :
    errorIp? (start 4093 [] [0x04, 0x01, 0x05]) = some (.memAddressOutOfRange, 4093) := by decide

/-- FD11: the advance is checked before the register field 200. -/
theorem test_fd11_advance_before_field :
    errorIp? (start 4094 [] [0x05, 0xC8]) = some (.memAddressOutOfRange, 4094) := by decide

/-! ### The instructions, at most two each -/

/-- MV4: rs = r0 moves the advanced IP. -/
theorem test_mv4 : regs? (start 100 [(1, 5)] [0x01, 0x01, 0x00, 0x01]) [0, 1] = some [0x68, 0x68] := by decide

/-- MV7: rd = 16 fails although the condition is false. -/
theorem test_mv7 : errorIp? (start 0 [] [0x01, 0x10, 0x02, 0x01]) = some (.memAddressOutOfRange, 4) := by decide

/-- LI2: sign extension. -/
theorem test_li2 : regs? (start 0 [] [0x04, 0x05, 0xFF, 0xFF]) [0, 5] = some [4, 0xFFFFFFFF] := by decide

/-- LI6: destination r0 is a jump. -/
theorem test_li6 : regs? (start 0 [] [0x04, 0x00, 0x00, 0x01]) [0] = some [0x100] := by decide

/-- SB2: 0 - 1 wraps. -/
theorem test_sb2 : regs? (start 0 [(2, 1)] [0x05, 0x03, 0x01, 0x02]) [0, 3] = some [4, 0xFFFFFFFF] := by decide

/-- SB6: a relative jump reads the advanced IP. -/
theorem test_sb6 : regs? (start 20 [(7, 12)] [0x05, 0x00, 0x00, 0x07]) [0] = some [0xC] := by decide

/-- ST5: unaligned, little-endian, over the instruction's own bytes. -/
theorem test_st5 :
    (next? (step (start 0 [(1, 1), (2, 0x01020304)] [0x02, 0x01, 0x02]))).map
      (fun t => (t.ip, (List.range 6).map t.byteAt)) = some (3, [0x02, 0x04, 0x03, 0x02, 0x01, 0x00]) := by
  decide

/-- ST3 and ST4: a span past the arena writes nothing, and the sum does not wrap. -/
theorem test_st3_st4 :
    errorIp? (start 0 [(1, 4093), (2, 0xA1B2C3D4)] [0x02, 0x01, 0x02]) = some (.memAddressOutOfRange, 3) ∧
      errorIp? (start 0 [(1, 0xFFFFFFFF), (2, 1)] [0x02, 0x01, 0x02]) = some (.memAddressOutOfRange, 3) := by
  decide

/-- LD2: the highest legal address. -/
theorem test_ld2 :
    regs? (startMem 0 [(1, 4092)] [0x03, 0x03, 0x01] 4092 [1, 2, 3, 4]) [0, 3] = some [3, 0x04030201] := by
  decide

/-- LD6: destination r0 jumps to the loaded word. -/
theorem test_ld6 : regs? (startMem 0 [(1, 0x300)] [0x03, 0x00, 0x01] 768 [0x40]) [0] = some [0x40] := by decide

/-- OC2 and OC3: bits 31:8 are ignored, and a byte of 0x80 or more is two bytes. -/
theorem test_oc2_oc3 :
    sent? (start 0 [(4, 0x141)] [0x06, 0x04]) = some [0x41] ∧
      sent? (start 0 [(4, 0xE9)] [0x06, 0x04]) = some [0xC3, 0xA9] := by decide

/-- OC8: the sink answers FAIL. -/
theorem test_oc8 :
    errorIp? (answering (.fail 0) (start 0 [(4, 0x41)] [0x06, 0x04])) = some (.writeError, 2) := by decide

/-- FD6 and EX2: exit at the last byte and with trailing bytes. -/
theorem test_exit :
    (next? (step (start 4095 [] [0x07]))).map (fun t => (t.ip, t.answered)) = some (0x1000, some .terminated) ∧
      (next? (step (start 0 [] [0x07, 0xFF, 0xFF, 0xFF]))).map (fun t => (t.ip, t.answered)) =
        some (1, some .terminated) := by decide

/-- ON3 and ON5: "-42" and the longest text. -/
theorem test_on3_on5 :
    sent? (start 0 [(3, 0xFFFFFFD6)] [0x08, 0x03]) = some [0x2D, 0x34, 0x32] ∧
      sent? (start 0 [(3, 0x80000000)] [0x08, 0x03]) =
        some [0x2D, 0x32, 0x31, 0x34, 0x37, 0x34, 0x38, 0x33, 0x36, 0x34, 0x38] := by decide

/-- ON8: r0 prints the advanced IP. -/
theorem test_on8 : sent? (start 0 [] [0x08, 0x00]) = some [0x32] := by decide

/-! ### The host's interface -/

/-- A table word placed at reset is what the first step runs. -/
theorem test_withFetchWord :
    (State.reset.withFetchWord 32 0x00050104).fetchDecode = some (.li 1 5) ∧
      (State.reset.withFetchWord 8 0x07).fetchDecode = some .exit := by decide

/-- H3 and H5: the port errors. -/
theorem test_port_errors :
    (match setRegPort 16 1 State.reset with | .ok _ => none | .error e => some e) =
        some ErrorKind.regIndexOutOfRange ∧
      (match loadPort (List.replicate 4097 0) Sink.accepting with | .ok _ => none | .error e => some e) =
        some ErrorKind.memoryOverflow := by
  constructor
  · decide
  · rw [loadPort, if_neg (by rw [List.length_replicate]; decide)]

/-! ### Witnesses for the obligations' hypotheses -/

/-- The register-only instructions: the clauses of `MovifMovesIfConditionNonzero`, `SubWrapsModulo` and
`LiLoadsSignExtendedImmediate` at their boundaries (advance to 4097 and to 4096, fields 16 and 15). -/
theorem witness_register_instructions :
    (255 : Nat) < 256 ∧ 4096 < (start 4093 [] []).ip.toNat + 4 ∧
      ((start 4092 [] []).ip.toNat + 4 ≤ 4096 ∧ 16 ≤ (16 : Nat)) ∧
      (start 4092 [] []).ip.toNat + 4 ≤ 4096 := by decide

/-- Both cases of move-if's condition, and its condition read from r0. -/
theorem witness_movif_condition :
    (start 4092 [] []).regAfter 4 15 = 0 ∧ (start 4092 [(15, 0x80000000)] []).regAfter 4 15 ≠ 0 ∧
      (start 4092 [] []).regAfter 4 0 = 4096 := by decide

/-- `StoreWritesFourLittleEndianBytes`, clause by clause: the last clause's address at 4092, the span clause
at 4093. -/
theorem witness_store :
    4096 < (start 4094 [] []).ip.toNat + 3 ∧ (start 4093 [] []).ip.toNat + 3 ≤ 4096 ∧
      4092 < ((start 4093 [(1, 4093)] []).regAfter 3 1).toNat ∧
      ((start 4093 [(1, 4092), (2, 0xA1B2C3D4)] []).Inv ∧
        ((start 4093 [(1, 4092), (2, 0xA1B2C3D4)] []).regAfter 3 1).toNat ≤ 4092) := by decide

/-- `LoadReadsFourLittleEndianBytes`, likewise, its destination the address register. -/
theorem witness_load :
    4096 < (start 4094 [] []).ip.toNat + 3 ∧ (start 4093 [] []).ip.toNat + 3 ≤ 4096 ∧
      4092 < ((start 4093 [(15, 4093)] []).regAfter 3 15).toNat ∧
      ((start 4093 [(15, 4092)] []).regAfter 3 15).toNat ≤ 4092 := by decide

/-- `OutcSendsOneUtf8Character` and `OutnSendsSignedDecimalText`: an accepting sink, a failing one with a
prefix of one byte, and both character lengths at their boundary. -/
theorem witness_output :
    4096 < (start 4095 [] []).ip.toNat + 2 ∧ (start 4094 [] []).ip.toNat + 2 ≤ 4096 ∧
      (start 4094 [(1, 0x7F)] []).sink.answer = .ok ∧
      (answering (.fail 1) (start 4094 [(1, 0x80)] [])).sink.answer = .fail 1 ∧
      ((start 4094 [(1, 0x7F)] []).regAfter 2 1).toNat % 256 = 0x7F ∧
      ((start 4094 [(1, 0x80)] []).regAfter 2 1).toNat % 256 = 0x80 ∧
      ((start 4094 [(1, 0x80000000)] []).regAfter 2 1).toNat = 2 ^ 31 := by decide

/-- `ExitTerminates` at the last byte. -/
theorem witness_exit : (start 4095 [] []).ip.toNat < 4096 := by decide

/-- `FetchWindowIsPaddedArena` where three bytes of the window are padding. -/
theorem witness_fetchWindow :
    (start 4095 [] [0x07]).ip.toNat < 4096 ∧ (start 4095 [] [0x07]).fetchWindow = 0x00000007 := by decide

/-- `DecodeFollowsFormats`: a window for each opcode clause, and the two ends of the illegal ones. -/
theorem witness_formats :
    ([0x01, 0x02, 0x03, 0x04, 0x05, 0x06, 0x07, 0x08, 0x00, 0x09, 0xFF] : List Word).map
      (fun w => w.toNat % 256) = [1, 2, 3, 4, 5, 6, 7, 8, 0, 9, 255] := by decide

/-- `DecodeInvertsEncode`: every constructor with its largest fields. -/
theorem witness_encode :
    ∀ i ∈ [Instr.movif 255 255 255, .store 255 255, .load 255 255, .li 255 0xFFFF, .sub 255 255 255,
      .outc 255, .exit, .outn 255], i.wellFormed = true := by decide

/-- `EncodeInvertsDecode`. -/
theorem witness_decodeBytes : decodeBytes [0x04, 0xFF, 0x2E, 0xFB] = .ok (.li 255 0xFB2E) := by rfl

/-- `DecodeIgnoresTrailingBytes`: a window of exit and one that differs in all three other bytes. -/
theorem witness_trailing :
    decode 0x00000007 = .ok .exit ∧
      (0xFFFFFF07 : Word).toNat % 2 ^ (8 * Instr.len .exit) =
        (0x00000007 : Word).toNat % 2 ^ (8 * Instr.len .exit) := by
  refine ⟨?_, ?_⟩ <;> rfl

/-- `StepExecutesDecodedInstruction`. -/
theorem witness_step :
    (start 4095 [] [0x07]).ip.toNat < 4096 ∧ decode (start 4095 [] [0x07]).fetchWindow = .ok .exit :=
  ⟨by decide, by rfl⟩

/-- `StepExecutesInstructionInArena`: an instruction that ends at the last byte. -/
theorem witness_step_in_arena :
    (Instr.store 1 2).wellFormed = true ∧
      (start 4093 [] [0x02, 0x01, 0x02]).ip.toNat + (Instr.store 1 2).len ≤ 4096 ∧
      ∀ k (h : k < (encode (.store 1 2)).length),
        (start 4093 [] [0x02, 0x01, 0x02]).byteAt ((start 4093 [] [0x02, 0x01, 0x02]).ip.toNat + k) =
          (encode (.store 1 2))[k] := by decide

/-- `UnknownInstructionExactly` and `UnknownInstructionRepeats`: reset itself, whose arena is all zero. -/
theorem witness_unknown : step State.reset = .fault (.error .unknownInstruction State.reset) := by rfl

/-- `CheckedInstructionCompletes`: a form with no data access, and an output with an accepting sink. -/
theorem witness_checked :
    ((start 4092 [] []).ip.toNat + (Instr.sub 15 0 15).len ≤ 4096 ∧
      (∀ f ∈ (Instr.sub 15 0 15).regFields, f < 16) ∧ isOutput (.sub 15 0 15) = false) ∧
    ((start 4094 [] []).ip.toNat + (Instr.outn 15).len ≤ 4096 ∧
      (∀ f ∈ (Instr.outn 15).regFields, f < 16) ∧ (start 4094 [] []).sink.answer = .ok) := by decide

/-- `CheckedInstructionCompletes`: the span of a store at 4092 does not fail, and one at 4093 does. -/
theorem witness_span :
    ¬ spanFails (.store 1 2) (start 0 [(1, 4092)] []) ∧ spanFails (.store 1 2) (start 0 [(1, 4093)] []) := by
  constructor
  · rintro ⟨f, hf, h⟩
    revert f
    decide
  · exact ⟨1, rfl, by decide⟩

/-- `AdvancePastArenaRefused`: 4097 is refused, and a step that completes exists. -/
theorem witness_advance :
    4096 < (start 4093 [] []).ip.toNat + (Instr.li 1 0).len ∧
      (next? (step (start 4095 [] [0x07]))).isSome = true := by decide

/-- `RegisterFieldOutOfRangeFails`: the last of three fields is 16. -/
theorem witness_field :
    (start 4092 [] []).ip.toNat + (Instr.movif 1 2 16).len ≤ 4096 ∧
      16 ∈ (Instr.movif 1 2 16).regFields := by decide

/-- `FailedStepLeavesTable`: a failed step for each row but the first, which is `witness_unknown`. -/
theorem witness_failed_steps :
    errorIp? (start 4093 [] [0x04, 0x01, 0x05]) = some (.memAddressOutOfRange, 4093) ∧
      errorIp? (start 0 [] [0x06, 0x10]) = some (.memAddressOutOfRange, 2) ∧
      errorIp? (start 0 [(1, 4093)] [0x03, 0x03, 0x01]) = some (.memAddressOutOfRange, 3) ∧
      (error? (step (answering (.fail 2) (start 0 [(3, 123)] [0x08, 0x03])))).map
        (fun p => (p.1, p.2.ip, p.2.sink.taken)) = some (.writeError, 2, [0x31, 0x32]) := by decide

/-- The frames over completed steps (`OnlyStoreWritesArena`, `StepChangesOnlyDestinationAndIp`,
`IpLeavesArenaOnlyByWrite`, `SinkIsAppendOnly`, `TerminatedExactlyByExit`): a completed step that is no store
and does not write r0, one that is an output, and one that is exit. -/
theorem witness_completed_steps :
    ((start 4092 [] [0x05, 0x0F, 0x00, 0x0F]).fetchDecode = some (.sub 15 0 15) ∧
      (next? (step (start 4092 [] [0x05, 0x0F, 0x00, 0x0F]))).isSome = true ∧
      isStore (.sub 15 0 15) = false ∧ destField (.sub 15 0 15) ≠ some 0) ∧
    ((start 0 [] [0x08, 0x00]).fetchDecode = some (.outn 0) ∧
      (next? (step (start 0 [] [0x08, 0x00]))).isSome = true ∧ isOutput (.outn 0) = true) ∧
    ((start 0 [] [0x07]).fetchDecode = some .exit ∧ (next? (step (start 0 [] [0x07]))).isSome = true) := by
  decide

/-- `OnlyStoreWritesArena`: a SETREG that is granted. -/
theorem witness_setReg : setRegPort 15 7 State.reset = .ok (State.reset.setReg 15 7) := by rfl

/-- `SinkReachesCoreOnlyByItsAnswer`: two states that differ in what the sink has taken, with one answer. -/
theorem witness_two_sinks :
    let s := start 0 [] [0x08, 0x00]
    let u := s.setSink { taken := [0x41], answers := [.ok, .fail 0], thereafter := .silent }
    u.regs = s.regs ∧ u.mem = s.mem ∧ u.sink.answer = s.sink.answer ∧ u.sink ≠ s.sink := by decide

/-- `SilentSinkExactlyHangs`: a step without an outcome. -/
theorem witness_silent : step (answering .silent (start 0 [] [0x06, 0x00])) = .fault .sinkSilent := by rfl

/-- `StepKeepsArenaCanonical`: a state that meets the invariant, with a step that completes. -/
theorem witness_inv :
    (start 0 [(1, 4092), (2, 0xA1B2C3D4)] [0x02, 0x01, 0x02]).Inv ∧
      (next? (step (start 0 [(1, 4092), (2, 0xA1B2C3D4)] [0x02, 0x01, 0x02]))).isSome = true := by decide

/-- `CanonicalArenaIsItsBytes`: a canonical arena that is not empty. -/
theorem witness_canonical : Memory.wf [(0, 0x01), (4095, 0xFF)] := by decide

/-- `LoadAfterStoreGivesStoredWord` and `FetchSeesEarlierStore`: the store at 4092 completes, and the state it
leaves, with IP moved, meets the rest. -/
theorem witness_load_after_store :
    let s := start 0 [(1, 4092), (2, 0xA1B2C3D4)] []
    s.Inv ∧ exec (.store 1 2) s =
      .next (((s.advanced 3).setMem (s.mem.write32 4092 0xA1B2C3D4)).setAnswered (some .continued)) ∧
    let u := ((s.advanced 3).setMem (s.mem.write32 4092 0xA1B2C3D4)).setAnswered (some .continued)
    u.ip.toNat + 3 ≤ 4096 ∧ u.regAfter 3 1 = s.regAfter 3 1 ∧ (u.setIp 4092).ip = s.regAfter 3 1 := by
  refine ⟨by decide, by rfl, by decide, by decide, by decide⟩

/-- `PseudoInstructionsAct`, clause by clause: jmp's targets past both ends of the arena, getip's zero register,
and halt at the last byte. -/
theorem witness_pseudo :
    (start 4092 [] []).ip.toNat + 4 ≤ 4096 ∧ 4096 ≤ (0x1000 : BitVec 16).toInt ∧
      (0xFFFF : BitVec 16).toInt < 0 ∧ (start 4092 [] []).regAfter 4 9 = 0 ∧
      (start 4095 [] []).ip.toNat < 4096 := by decide

/-- `LoadPlacesImageAndClears`, `LoadRefusesLongImage` and `LoadedArenaIsCanonical`: images of 4096 and of
4097 bytes. -/
theorem witness_images :
    (List.replicate 4096 (0x07 : Byte)).length = 4096 ∧ 4096 < (List.replicate 4097 (0x07 : Byte)).length ∧
      loadPort [0x07] Sink.accepting =
        .ok { State.reset with mem := [(0, 0x07)] } := by
  refine ⟨by rw [List.length_replicate], by rw [List.length_replicate]; decide, by rfl⟩

/-- `RunResponseIsFinal`: a run that has responded after one step (image `[07]`, vector H8). -/
theorem witness_run_response : ∀ u, run 1 (start 0 [] [0x07]) ≠ .running u := by
  intro u h
  cases h

end Sys2Proof.Tests
end

section
/-! The arena over a step (20_memory.md rule R69): the SINK port's outcomes read backwards, then what a
completed and what a failed instruction leave of the arena. -/

namespace Sys2Proof.Machine

/-! ### The SINK port, from its outcome -/

/-- A transaction that completes was answered `OK`. -/
theorem sinkWrite_eq_next {bs : List Byte} {s t : State} (h : sinkWrite bs s = .next t) :
    s.sink.answer = .ok ∧ t = (s.setSink (s.sink.take bs)).setAnswered (some .continued) := by
  cases ha : s.sink.answer with
  | ok => exact ⟨rfl, Host.Outcome.next.inj (h.symm.trans (sinkWrite_ok ha))⟩
  | fail k => simp [sinkWrite_fail ha] at h
  | silent => simp [sinkWrite_silent ha] at h

/-- A transaction that fails was answered `FAIL`, and its error is `WriteError`. -/
theorem sinkWrite_eq_error {bs : List Byte} {s l : State} {e : ErrorKind}
    (h : sinkWrite bs s = .fault (.error e l)) :
    ∃ k, s.sink.answer = .fail k ∧ e = .writeError ∧ l = s.setSink (s.sink.take (bs.take k)) := by
  cases ha : s.sink.answer with
  | ok => simp [sinkWrite_ok ha] at h
  | fail k =>
    obtain ⟨rfl, rfl⟩ := Fault.error.inj (Host.Outcome.fault.inj (h.symm.trans (sinkWrite_fail ha)))
    exact ⟨k, rfl, rfl, rfl⟩
  | silent => simp [sinkWrite_silent ha] at h

/-! ### The arena after an instruction, a step and a SETREG -/

/-- A completed instruction that is no store leaves the arena. -/
theorem exec_next_mem {i : Instr} {s t : State} (hs : isStore i = false) (h : exec i s = .next t) :
    t.mem = s.mem := by
  cases exec_cases i s with
  | advanceFails _ hx => simp [hx] at h
  | operandFails _ _ hx => simp [hx] at h
  | completes _ _ u hu hx =>
    obtain rfl := Host.Outcome.next.inj (hx.symm.trans h)
    obtain ⟨-, -, hmem, -, -⟩ := hu
    exact hmem hs
  | outputs _ _ bs _ _ hx =>
    obtain ⟨-, rfl⟩ := sinkWrite_eq_next (hx.symm.trans h)
    simp

/-- A failed instruction, a store included, leaves the arena: every check stands before the write. -/
theorem exec_error_mem {i : Instr} {s l : State} {e : ErrorKind} (h : exec i s = .fault (.error e l)) :
    l.mem = s.mem := by
  cases exec_cases i s with
  | advanceFails _ hx =>
    obtain ⟨-, rfl⟩ := Fault.error.inj (Host.Outcome.fault.inj (hx.symm.trans h))
    rfl
  | operandFails _ _ hx =>
    obtain ⟨-, rfl⟩ := Fault.error.inj (Host.Outcome.fault.inj (hx.symm.trans h))
    simp
  | completes _ _ u _ hx => simp [hx] at h
  | outputs _ _ bs _ _ hx =>
    obtain ⟨k, -, -, rfl⟩ := sinkWrite_eq_error (hx.symm.trans h)
    simp

/-- A failed step leaves the arena, whether or not there was an instruction to execute. -/
theorem step_error_mem {s l : State} {e : ErrorKind} (h : step s = .fault (.error e l)) :
    l.mem = s.mem := by
  cases hd : s.fetchDecode with
  | none =>
    obtain ⟨-, rfl⟩ :=
      Fault.error.inj (Host.Outcome.fault.inj ((step_of_no_instruction hd).symm.trans h))
    rfl
  | some i => exact exec_error_mem ((step_of_fetchDecode hd).symm.trans h)

/-- SETREG is granted for a register that exists only, and is then one register write (rule R33). -/
theorem setRegPort_eq_ok {i : Nat} {v : Word} {s t : State} (h : setRegPort i v s = .ok t) :
    ∃ r : RegIdx, i = r.val ∧ t = s.setReg r v := by
  unfold setRegPort at h
  split at h
  case isTrue hi => exact ⟨⟨i, hi⟩, rfl, (Except.ok.inj h).symm⟩
  case isFalse => cases h

/-- Settles O27, by the ways an instruction can end: only the completing store reaches its arena write. -/
theorem onlyStoreWritesArena : Obligations.OnlyStoreWritesArena := by
  refine ⟨fun s t i hd h hs => ?_, fun s l e => step_error_mem, fun i v s t h => ?_⟩
  · exact exec_next_mem hs ((step_of_fetchDecode hd).symm.trans h)
  · obtain ⟨r, -, rfl⟩ := setRegPort_eq_ok h
    simp

end Sys2Proof.Machine
end

section
/-! The decoder on a window read as a number (30_encoding.md rules R71 to R77, R81 and R83): the window's
bytes and immediate as quotients of its value, then each opcode's instruction. -/

namespace Sys2Proof

/-! ### The parts of a window as quotients of its value -/

/-- Nothing of a window lies above its byte 3 (rule R71). -/
theorem byteOf_three_toNat (w : Word) : (byteOf w 3).toNat = w.toNat / 2 ^ 24 := by
  have hw := w.isLt
  rw [byteOf_toNat]
  omega

/-- The immediate is the upper half of the window (rule R75). -/
theorem byteOf_three_append_two (w : Word) :
    byteOf w 3 ++ byteOf w 2 = BitVec.ofNat 16 (w.toNat / 2 ^ 16) := by
  apply BitVec.eq_of_toNat_eq
  rw [append_byte_toNat, byteOf_toNat, byteOf_toNat, BitVec.toNat_ofNat]
  omega

/-! ### The formats -/

/-- Settles O10: the opcode number fixes the opcode byte, and with it what `decode_of_opcode` makes of the
other bytes; no opcode has a number outside 1 to 8. -/
theorem decodeFollowsFormats : Obligations.DecodeFollowsFormats := by
  intro w op b1 b2 b3 hop h1 h2 h3
  obtain rfl : op = (byteOf w 0).toNat := hop.trans (by simp [byteOf_toNat])
  obtain rfl : b1 = (byteOf w 1).toNat := h1.trans (byteOf_toNat w 1).symm
  obtain rfl : b2 = (byteOf w 2).toNat := h2.trans (byteOf_toNat w 2).symm
  obtain rfl : b3 = (byteOf w 3).toNat := h3.trans (byteOf_three_toNat w).symm
  rw [← byteOf_three_append_two, BitVec.ofNat_toNat, BitVec.setWidth_eq]
  have selects (o : Opcode) (h : (byteOf w 0).toNat = o.byte.toNat) :=
    decode_of_opcode (BitVec.eq_of_toNat_eq h)
  refine ⟨fun h => ⟨selects .movif h, rfl⟩, fun h => ⟨selects .store h, rfl⟩,
    fun h => ⟨selects .load h, rfl⟩, fun h => ⟨selects .li h, rfl⟩, fun h => ⟨selects .sub h, rfl⟩,
    fun h => ⟨selects .outc h, rfl⟩, fun h => ⟨selects .exit h, rfl⟩, fun h => ⟨selects .outn h, rfl⟩,
    fun h => decode_illegal fun o ho => ?_⟩
  have hb := o.byte_toNat
  rw [ho] at h
  omega

end Sys2Proof
end

section
/-! The register-field check of a step and its fetch window (40_step.md rules R103 and R108). -/

namespace Sys2Proof.Machine

/-! ### A register field of 16 or more -/

/-- An instruction whose checks all pass has no field of 16 or more. -/
theorem not_checked_of_field {i : Instr} {s : State} {f : Nat} (hf : f ∈ i.regFields)
    (h16 : Config.nregs ≤ f) : ¬ Checked i s := by
  rintro ⟨-, hregs, -⟩
  exact Nat.not_lt.2 h16 (hregs f hf)

/-- A field of 16 or more fails the instruction in the advanced state, wherever the field stands among the
others and whatever it is for (rule R108). -/
theorem exec_field_fails {i : Instr} {s : State} {f : Nat} (h : s.ip.toNat + i.len ≤ Config.memSize)
    (hf : f ∈ i.regFields) (h16 : Config.nregs ≤ f) :
    exec i s = .fault (.error .memAddressOutOfRange (s.advanced i.len)) := by
  cases exec_cases i s with
  | advanceFails ha _ => exact absurd h (Nat.not_le.2 ha)
  | operandFails _ _ hx => exact hx
  | completes hc _ _ _ _ => exact absurd hc (not_checked_of_field hf h16)
  | outputs hc _ _ _ _ _ => exact absurd hc (not_checked_of_field hf h16)

/-- Settles O24: the state left is the advanced one, since the field check is the first after the advance and
nothing has been written by then. -/
theorem registerFieldOutOfRangeFails : Obligations.RegisterFieldOutOfRangeFails := by
  intro i s f h hf h16
  exact ⟨s.advanced i.len, exec_field_fails h hf h16, s.ipAdvancedOnly_advanced i.len⟩

/-! ### The fetch window -/

/-- A fetched byte as a number: the arena's, or the padding. -/
theorem State.fetchByte_toNat (s : State) (a : Nat) :
    (s.fetchByte a).toNat = if a < Config.memSize then (s.byteAt a).toNat else 0 := by
  unfold State.fetchByte
  split <;> rfl

/-- The window as a number, from its four bytes in little-endian order (rule R103). -/
theorem State.fetchWindow_toNat (s : State) :
    s.fetchWindow.toNat = (s.fetchByte s.ip.toNat).toNat + 2 ^ 8 * (s.fetchByte (s.ip.toNat + 1)).toNat +
      2 ^ 16 * (s.fetchByte (s.ip.toNat + 2)).toNat + 2 ^ 24 * (s.fetchByte (s.ip.toNat + 3)).toNat :=
  wordOfBytes_toNat _ _ _ _

/-- Settles O9: the statement's `f` is the fetch unit's byte at every offset, so the window's bytes are its
values. The bound on IP is not used: the padding covers every offset past the arena. -/
theorem fetchWindowIsPaddedArena : Obligations.FetchWindowIsPaddedArena := by
  intro s f _ hf
  have hbyte (a : Nat) : f a = (s.fetchByte a).toNat := (hf a).trans (s.fetchByte_toNat a).symm
  simp only [hbyte]
  exact s.fetchWindow_toNat

end Sys2Proof.Machine
end

section
/-! The register and ALU instructions (41_register_ops.md): what the ALU functions compute as numbers, the
registers a completed move-if leaves, then each instruction whole. -/

namespace Sys2Proof.Machine

/-! ### The ALU as arithmetic -/

/-- The zero test tests all 32 bits (rule R140). -/
theorem nz_iff {c : Word} : nz c = true ↔ c ≠ 0 := decide_eq_true_iff

/-- Subtraction is the integers' difference reduced modulo 2^32 (rule R142). -/
theorem sub32_eq_ofInt (a b : Word) : sub32 a b = BitVec.ofInt 32 ((a.toNat : Int) - b.toNat) := by
  rw [Int.sub_eq_add_neg, BitVec.ofInt_add, BitVec.ofInt_neg, BitVec.ofInt_natCast, BitVec.ofInt_natCast,
    BitVec.ofNat_toNat, BitVec.ofNat_toNat, BitVec.setWidth_eq, BitVec.setWidth_eq]
  exact BitVec.sub_eq_add_neg a b

/-- The sign of an immediate is bit 7 of its high byte. -/
theorem msb_append_byte (hi lo : Byte) : (hi ++ lo).msb = decide (128 ≤ hi.toNat) := by
  rw [BitVec.msb_eq_decide, append_byte_toNat]
  have := lo.isLt
  simp only [decide_eq_decide]
  omega

/-- Sign extension adds sixteen ones above a negative immediate (rule R141). -/
theorem sext16_append (hi lo : Byte) :
    sext16 (hi ++ lo) =
      BitVec.ofNat 32 (hi.toNat * 256 + lo.toNat + if 128 ≤ hi.toNat then 0xFFFF0000 else 0) := by
  apply BitVec.eq_of_toNat_eq
  rw [sext16, BitVec.toNat_signExtend, BitVec.toNat_setWidth, append_byte_toNat, msb_append_byte,
    BitVec.toNat_ofNat]
  have := hi.isLt
  have := lo.isLt
  by_cases h : 128 ≤ hi.toNat
  · rw [decide_eq_true h, if_pos rfl, if_pos h]
    omega
  · rw [decide_eq_false h, if_neg Bool.false_ne_true, if_neg h]
    omega

/-! ### The three instructions -/

/-- A completed move-if writes its destination exactly where its condition register, read after the advance,
is not zero (rule R140). -/
theorem leadsTo_movif (s : State) (d r c : RegIdx) :
    s.leadsTo ((if nz ((s.advanced 4).reg c) then (s.advanced 4).setReg d ((s.advanced 4).reg r)
        else s.advanced 4).setAnswered (some .continued))
      (fun i => if s.regAfter 4 c ≠ 0 ∧ i = d then s.regAfter 4 r else s.regAfter 4 i) .continued := by
  rw [← s.regAfter_eq, ← s.regAfter_eq]
  simp only [← nz_iff]
  cases nz (s.regAfter 4 c) with
  | false => simpa using s.leadsTo_advanced 4 .continued
  | true => simpa using s.leadsTo_setReg 4 d (s.regAfter 4 r) .continued

/-- Settles O1, by the advance, the field check and the condition in turn. -/
theorem movifMovesIfConditionNonzero : Obligations.MovifMovesIfConditionNonzero := by
  refine ⟨fun _ _ _ _ _ _ => rfl, fun s rd rs rc h => exec_advance_fails h,
    fun s rd rs rc h hf => ?_, fun s d r c h => ?_⟩
  · exact ⟨s.advanced 4, execMovif_operand_fails h hf, s.ipAdvancedOnly_advanced 4⟩
  · exact ⟨_, execMovif_ok d r c h, leadsTo_movif s d r c⟩

/-- Settles O2, the sign extension by `sext16_append`. -/
theorem liLoadsSignExtendedImmediate : Obligations.LiLoadsSignExtendedImmediate := by
  refine ⟨fun ri lo hi _ => ?_, fun s ri imm h => exec_advance_fails h,
    fun s ri imm h hf => ?_, fun s d lo hi h => ?_⟩
  · rw [encode, imm_low, imm_high]
    rfl
  · exact ⟨s.advanced 4, execLi_operand_fails imm h hf, s.ipAdvancedOnly_advanced 4⟩
  · rw [← sext16_append]
    exact ⟨_, execLi_ok d (hi ++ lo) h, s.leadsTo_setReg 4 d (sext16 (hi ++ lo)) .continued⟩

/-- Settles O3, the difference by `sub32_eq_ofInt`. -/
theorem subWrapsModulo : Obligations.SubWrapsModulo := by
  refine ⟨fun _ _ _ _ _ _ => rfl, fun s rd ra rb h => exec_advance_fails h,
    fun s rd ra rb h hf => ?_, fun s d a b h => ?_⟩
  · exact ⟨s.advanced 4, execSub_operand_fails h hf, s.ipAdvancedOnly_advanced 4⟩
  · rw [← sub32_eq_ofInt, s.regAfter_eq, s.regAfter_eq]
    exact ⟨_, execSub_ok d a b h, s.leadsTo_setReg 4 d _ .continued⟩

end Sys2Proof.Machine
end

section
/-! The memory instructions (42_load_store.md): the four bytes of a data access as numbers, then each
instruction whole. -/

namespace Sys2Proof

/-! ### The bytes of a data access as numbers -/

/-- Byte `k` of a word is its bits 8k+7:8k (20_memory.md rule R54). -/
theorem byteOf_eq_ofNat (w : Word) (k : Nat) : byteOf w k = BitVec.ofNat 8 (w.toNat / 2 ^ (8 * k)) := by
  apply BitVec.eq_of_toNat_eq
  rw [byteOf_toNat, BitVec.toNat_ofNat]

namespace Machine

/-- A 4-byte read is the little-endian sum of its bytes (rule R161). -/
theorem Memory.read32_eq_ofNat (m : Memory) (a : Nat) :
    m.read32 a = BitVec.ofNat 32 ((m.read a).toNat + 2 ^ 8 * (m.read (a + 1)).toNat +
      2 ^ 16 * (m.read (a + 2)).toNat + 2 ^ 24 * (m.read (a + 3)).toNat) := by
  rw [← wordOfBytes_toNat, BitVec.ofNat_toNat, BitVec.setWidth_eq, Memory.read32]

/-! ### The two instructions -/

/-- Settles O4, by the advance, the field check and the span check in turn; the bytes of a completed store by
`Memory.read_write32`, which needs the canonical arena. -/
theorem storeWritesFourLittleEndianBytes : Obligations.StoreWritesFourLittleEndianBytes := by
  refine ⟨fun _ _ _ _ => rfl, fun s ri rj h => exec_advance_fails h, fun s ri rj h hf => ?_,
    fun s p v h ha => ?_, fun s p v hs h ha => ?_⟩
  · exact ⟨s.advanced 3, execStore_operand_fails h hf, s.ipAdvancedOnly_advanced 3⟩
  · rw [s.regAfter_eq] at ha
    exact ⟨s.advanced 3, execStore_span_fails p v h ha, s.ipAdvancedOnly_advanced 3⟩
  · simp only [State.regAfter_eq, ← byteOf_eq_ofNat] at ha ⊢
    have hspan : ((s.advanced 3).reg p).toNat + 3 < Config.memSize := by
      simp only [Config.memSize]
      omega
    exact ⟨_, execStore_ok p v h ha, fun _ => rfl, Memory.read_write32 hs hspan _, rfl, rfl⟩

/-- Settles O5, by the same three checks; the loaded word by `Memory.read32_eq_ofNat`. -/
theorem loadReadsFourLittleEndianBytes : Obligations.LoadReadsFourLittleEndianBytes := by
  refine ⟨fun _ _ _ _ => rfl, fun s ri rj h => exec_advance_fails h, fun s ri rj h hf => ?_,
    fun s d p h ha => ?_, fun s d p h ha => ?_⟩
  · exact ⟨s.advanced 3, execLoad_operand_fails h hf, s.ipAdvancedOnly_advanced 3⟩
  · rw [s.regAfter_eq] at ha
    exact ⟨s.advanced 3, execLoad_span_fails d p h ha, s.ipAdvancedOnly_advanced 3⟩
  · rw [s.regAfter_eq 3 p] at ha ⊢
    rw [← Memory.read32_eq_ofNat]
    exact ⟨_, execLoad_ok d p h ha, s.leadsTo_setReg 3 d _ .continued⟩

end Machine
end Sys2Proof
end

section
/-! The exit instruction (43_output_exit.md rule R181). -/

namespace Sys2Proof.Machine

/-- Settles O7: exit has no check but the advance, which cannot fail where IP fetches, and no effect but its
answer. -/
theorem exitTerminates : Obligations.ExitTerminates := by
  refine ⟨rfl, fun s h => ?_⟩
  have hadv : s.ip.toNat + 1 ≤ Config.memSize := h
  exact ⟨_, execExit_ok hadv, s.leadsTo_advanced 1 .terminated⟩

end Sys2Proof.Machine
end

section
/-! The error kinds (60_exceptions.md rules R200 to R206): where a window is no instruction, which errors an
instruction and a step can raise and exactly where, then each kind whole. -/

namespace Sys2Proof

/-! ### Where there is no instruction -/

/-- The defined opcode bytes are 1 to 8, with no gap (30_encoding.md rules R81 and R83). -/
theorem Opcode.exists_byte_iff {b : Byte} : (∃ o : Opcode, b = o.byte) ↔ 1 ≤ b.toNat ∧ b.toNat ≤ 8 := by
  constructor
  · rintro ⟨o, rfl⟩
    exact o.byte_toNat
  · rintro ⟨h1, h8⟩
    have of_toNat (o : Opcode) (h : b.toNat = o.byte.toNat) : ∃ o : Opcode, b = o.byte :=
      ⟨o, BitVec.eq_of_toNat_eq h⟩
    obtain h | h | h | h | h | h | h | h : b.toNat = 1 ∨ b.toNat = 2 ∨ b.toNat = 3 ∨ b.toNat = 4 ∨
        b.toNat = 5 ∨ b.toNat = 6 ∨ b.toNat = 7 ∨ b.toNat = 8 := by omega
    · exact of_toNat .movif h
    · exact of_toNat .store h
    · exact of_toNat .load h
    · exact of_toNat .li h
    · exact of_toNat .sub h
    · exact of_toNat .outc h
    · exact of_toNat .exit h
    · exact of_toNat .outn h

/-- The opcode byte alone decides whether a window is an instruction (40_step.md rule R105). -/
theorem exists_decode_iff {w : Word} : (∃ i, decode w = .ok i) ↔ ∃ o : Opcode, byteOf w 0 = o.byte :=
  ⟨fun ⟨i, h⟩ => ⟨i.opcode, opcode_of_decode h⟩, fun ⟨_, h⟩ => ⟨_, decode_of_opcode h⟩⟩

namespace Machine

/-- Inside the arena the opcode byte of the window is the byte at IP, no padding. -/
theorem State.byteOf_fetchWindow_zero {s : State} (h : s.ip.toNat < Config.memSize) :
    byteOf s.fetchWindow 0 = s.byteAt s.ip.toNat := by
  simp only [fetchWindow, byteOf_wordOfBytes_zero]
  exact if_pos h

/-- There is an instruction exactly at an IP in the arena whose byte is 1 to 8 (rules R102 and R105). -/
theorem State.exists_fetchDecode_iff {s : State} :
    (∃ i, s.fetchDecode = some i) ↔
      s.ip.toNat < Config.memSize ∧ 1 ≤ (s.byteAt s.ip.toNat).toNat ∧ (s.byteAt s.ip.toNat).toNat ≤ 8 := by
  simp only [fetchDecode_eq_some, exists_and_left]
  refine and_congr_right fun h => ?_
  rw [exists_decode_iff, byteOf_fetchWindow_zero h, Opcode.exists_byte_iff]

theorem State.fetchDecode_eq_none_iff {s : State} :
    s.fetchDecode = none ↔ Config.memSize ≤ s.ip.toNat ∨ (s.ip.toNat < Config.memSize ∧
      ((s.byteAt s.ip.toNat).toNat = 0 ∨ 9 ≤ (s.byteAt s.ip.toNat).toNat)) := by
  rw [← Option.not_isSome_iff_eq_none, Option.isSome_iff_exists, exists_fetchDecode_iff]
  omega

/-! ### The errors of an instruction -/

/-- The SINK port's only error is `WriteError`, and the answer `FAIL` is its only cause (rule R183). -/
theorem sinkWrite_error_iff {bs : List Byte} {s : State} {e : ErrorKind} :
    (∃ l, sinkWrite bs s = .fault (.error e l)) ↔ e = .writeError ∧ ∃ k, s.sink.answer = .fail k := by
  constructor
  · rintro ⟨l, h⟩
    obtain ⟨k, ha, he, -⟩ := sinkWrite_eq_error h
    exact ⟨he, k, ha⟩
  · rintro ⟨rfl, k, ha⟩
    exact ⟨_, sinkWrite_fail ha⟩

/-- Some check before the sink fails: the advance, a register field or the data span. -/
theorem not_checked_iff {i : Instr} {s : State} :
    ¬ Checked i s ↔ Config.memSize < s.ip.toNat + i.len ∨ (∃ f ∈ i.regFields, Config.nregs ≤ f) ∨
      spanFails i s := by
  simp only [Checked, not_and_or, not_forall, exists_prop, not_le, not_lt, not_not]

/-- An output makes no data access, so its checks are the advance and the register fields only. -/
theorem checked_of_isOutput {i : Instr} {s : State} (ho : isOutput i = true) :
    Checked i s ↔ s.ip.toNat + i.len ≤ Config.memSize ∧ ∀ f ∈ i.regFields, f < Config.nregs := by
  have hspan : addrField i = none := by
    cases i with
    | outc | outn => rfl
    | movif | store | load | li | sub | exit => cases ho
  simp only [Checked, not_spanFails hspan, not_false_eq_true, and_true]

/-- A fault that carries a state has one kind. -/
theorem exists_error_eq_iff {d e : ErrorKind} {s : State} :
    (∃ l, (.fault (.error d s) : Result) = .fault (.error e l)) ↔ e = d := by
  constructor
  · rintro ⟨l, h⟩
    exact (Fault.error.inj (Host.Outcome.fault.inj h)).1.symm
  · rintro rfl
    exact ⟨s, rfl⟩

/-- The errors of an instruction, each with its cause: a failed check is `MemAddressOutOfRange`; past the
checks there is only the `WriteError` of an output (rule R206). -/
theorem exec_error_iff {i : Instr} {s : State} {e : ErrorKind} :
    (∃ l, exec i s = .fault (.error e l)) ↔
      (e = .memAddressOutOfRange ∧ ¬ Checked i s) ∨
      (e = .writeError ∧ Checked i s ∧ isOutput i = true ∧ ∃ k, s.sink.answer = .fail k) := by
  cases exec_cases i s with
  | advanceFails h hx =>
    have hc : ¬ Checked i s := not_checked_iff.2 (.inl h)
    rw [hx, exists_error_eq_iff]
    simp [hc]
  | operandFails _ hf hx =>
    have hc : ¬ Checked i s := not_checked_iff.2 (.inr hf)
    rw [hx, exists_error_eq_iff]
    simp [hc]
  | completes hc ho t _ hx => simp [hx, hc, ho]
  | outputs hc ho bs _ _ hx => simp [hx, hc, ho, sinkWrite_error_iff]

/-! ### The errors of a step -/

theorem step_error_iff {s l : State} {e : ErrorKind} :
    step s = .fault (.error e l) ↔
      (e = .unknownInstruction ∧ s.fetchDecode = none ∧ l = s) ∨
      ∃ i, s.fetchDecode = some i ∧ exec i s = .fault (.error e l) := by
  cases hd : s.fetchDecode with
  | none => simp [step_of_no_instruction hd, eq_comm]
  | some i => simp [step_of_fetchDecode hd]

/-- An error other than `UnknownInstruction` is one of the instruction at IP. -/
theorem exists_step_error_iff {s : State} {e : ErrorKind} (he : e ≠ .unknownInstruction) :
    (∃ l, step s = .fault (.error e l)) ↔
      ∃ i, s.fetchDecode = some i ∧ ∃ l, exec i s = .fault (.error e l) := by
  simp only [step_error_iff, he, false_and, false_or]
  rw [exists_comm]
  simp only [exists_and_left]

/-- No instruction raises `UnknownInstruction`, so the step that does had none and changed nothing. -/
theorem step_unknownInstruction_iff {s l : State} :
    step s = .fault (.error .unknownInstruction l) ↔ s.fetchDecode = none ∧ l = s := by
  have hx (i : Instr) : exec i s ≠ .fault (.error .unknownInstruction l) := fun h => by
    simpa using exec_error_iff.1 ⟨l, h⟩
  simp [step_error_iff, hx]

/-! ### Each kind -/

/-- Settles O17: the error is the missing instruction, and that is decided by IP and the byte there. -/
theorem unknownInstructionExactly : Obligations.UnknownInstructionExactly := by
  intro s
  refine ⟨?_, fun l h => (step_unknownInstruction_iff.1 h).2⟩
  simp only [step_unknownInstruction_iff, exists_and_left, exists_eq, and_true]
  exact State.fetchDecode_eq_none_iff

/-- Settles O18: the error is a failed check of the instruction at IP. -/
theorem memAddressOutOfRangeExactly : Obligations.MemAddressOutOfRangeExactly := by
  intro s
  rw [exists_step_error_iff (by decide)]
  refine exists_congr fun i => and_congr_right fun _ => ?_
  rw [exec_error_iff, not_checked_iff]
  simp

/-- Settles O19: the error is the sink's, which only an output reaches, and only past its checks. -/
theorem writeErrorExactly : Obligations.WriteErrorExactly := by
  intro s
  rw [exists_step_error_iff (by decide)]
  refine exists_congr fun i => ?_
  rw [exists_and_left]
  refine and_congr_right fun _ => ?_
  rw [exec_error_iff]
  constructor
  · rintro (⟨he, -⟩ | ⟨-, hc, ho, k, ha⟩)
    · cases he
    · obtain ⟨hadv, hregs⟩ := (checked_of_isOutput ho).1 hc
      exact ⟨k, ho, hadv, hregs, ha⟩
  · rintro ⟨k, ho, hadv, hregs, ha⟩
    exact .inr ⟨rfl, (checked_of_isOutput ho).2 ⟨hadv, hregs⟩, ho, k, ha⟩

/-- LOAD's only error is `MemoryOverflow`, for an image longer than the arena (rule R241). -/
theorem loadPort_eq_error_iff {image : List Byte} {k : Sink} {e : ErrorKind} :
    loadPort image k = .error e ↔ Config.memSize < image.length ∧ e = .memoryOverflow := by
  unfold loadPort
  split
  case isTrue h => simp [Nat.not_lt.2 h]
  case isFalse h => simp [Nat.not_le.1 h, eq_comm]

/-- SETREG's only error is `RegIndexOutOfRange`, for a register that does not exist (rule R33). -/
theorem setRegPort_eq_error_iff {i : Nat} {v : Word} {s : State} {e : ErrorKind} :
    setRegPort i v s = .error e ↔ Config.nregs ≤ i ∧ e = .regIndexOutOfRange := by
  unfold setRegPort
  split
  case isTrue h => simp [Nat.not_le.2 h]
  case isFalse h => simp [Nat.not_lt.1 h, eq_comm]

/-- The three kinds a step can raise (rules R203 to R205). -/
theorem step_error_kind {s l : State} {e : ErrorKind} (h : step s = .fault (.error e l)) :
    e = .unknownInstruction ∨ e = .memAddressOutOfRange ∨ e = .writeError := by
  obtain ⟨he, -⟩ | ⟨i, -, hx⟩ := step_error_iff.1 h
  · exact .inl he
  · obtain ⟨he, -⟩ | ⟨he, -⟩ := exec_error_iff.1 ⟨l, hx⟩
    · exact .inr (.inl he)
    · exact .inr (.inr he)

/-- Settles O20: each port has its one error, and neither is among the kinds of a step. -/
theorem portErrorsComeFromPortsOnly : Obligations.PortErrorsComeFromPortsOnly := by
  refine ⟨fun _ _ _ => loadPort_eq_error_iff, fun _ _ _ _ => setRegPort_eq_error_iff, fun s l => ?_⟩
  exact ⟨fun h => by simpa using step_error_kind h, fun h => by simpa using step_error_kind h⟩

end Machine
end Sys2Proof
end

section
/-! The LOAD port (70_reset_and_hazards.md rules R240 and R241): the arena of an image byte by byte, the
machine LOAD builds as the reset machine with that arena and the host's sink, then both rules. -/

namespace Sys2Proof.Machine

/-! ### The machine LOAD builds -/

/-- The arena of an image holds its bytes from offset 0 on and 0 after them (rule R240). -/
theorem Memory.read_ofImage {image : List Byte} (h : image.length ≤ Config.memSize) (a : Nat) :
    (Memory.ofImage image).read a = image.getD a 0 := by
  have hend : 0 + image.length ≤ Config.memSize := by omega
  rw [Memory.ofImage, Memory.read_place Memory.wf_nil image 0 hend, if_pos (Nat.zero_le a), Nat.sub_zero]
  rfl

@[simp] theorem State.reg_reset (i : RegIdx) : State.reset.reg i = 0 := by
  simp [State.reg, State.reset]

/-- LOAD of an image that fits gives the reset machine with the image's arena and the host's sink. -/
theorem loadPort_eq_ok {image : List Byte} (k : Sink) (h : image.length ≤ Config.memSize) :
    loadPort image k = .ok ((State.reset.setMem (Memory.ofImage image)).setSink k) :=
  if_pos h

/-! ### The two rules -/

/-- Settles O40: the registers are those of reset, the bytes are the image's by `Memory.read_ofImage`. -/
theorem loadPlacesImageAndClears : Obligations.LoadPlacesImageAndClears := by
  intro image k hlen
  refine ⟨_, loadPort_eq_ok k hlen, fun i => by simp, fun a ha => ?_, fun a ha => ?_⟩
  · exact (Memory.read_ofImage hlen a).trans (List.getD_eq_getElem image 0 ha)
  · exact (Memory.read_ofImage hlen a).trans (List.getD_eq_default image 0 ha)

/-- No instruction stands at IP in an all-zero arena, since opcode 0 is illegal (rule R83). -/
theorem State.fetchDecode_of_zero_arena {s : State} (h : ∀ a, s.byteAt a = 0) : s.fetchDecode = none := by
  rw [State.fetchDecode_eq_none_iff, h]
  exact (Nat.lt_or_ge s.ip.toNat Config.memSize).symm.imp_right fun hip => ⟨hip, .inl rfl⟩

/-- Settles O41: the length check gives the first two cases; the machine of the empty image is O40's, whose
arena is all 0. -/
theorem loadRefusesLongImage : Obligations.LoadRefusesLongImage := by
  refine fun image k => ⟨fun h => loadPort_eq_error_iff.2 ⟨h, rfl⟩,
    fun h => ⟨_, loadPort_eq_ok k (Nat.le_of_eq h)⟩, ?_⟩
  obtain ⟨t, hload, -, -, hzero⟩ := loadPlacesImageAndClears [] k (Nat.zero_le 4096)
  have hbytes (a : Nat) : t.byteAt a = 0 := hzero a (Nat.zero_le a)
  exact ⟨t, hload, hbytes, step_of_no_instruction (State.fetchDecode_of_zero_arena hbytes)⟩

end Sys2Proof.Machine
end

section
/-! Decoder and encoder (30_encoding.md sections 1 to 4): a window decodes to an instruction exactly when the
instruction is well formed and the window begins with its encoding. Both directions of the round trip, the
don't-care bytes and the instruction at IP all follow from it. -/

namespace Sys2Proof

/-! ### When a window decodes -/

/-- The four bytes of a window in address order (rule R71). -/
def windowBytes (w : Word) : List Byte := [byteOf w 0, byteOf w 1, byteOf w 2, byteOf w 3]

theorem windowBytes_eq_map (w : Word) : windowBytes w = (List.range Config.window).map (byteOf w) := rfl

/-- What the decoder accepts is well formed, and the window begins with its encoding. -/
theorem encode_of_decode {w : Word} {i : Instr} (h : decode w = .ok i) :
    i.wellFormed = true ∧ (windowBytes w).take i.len = encode i := by
  have hop := opcode_of_decode h
  generalize i.opcode = o at hop
  rw [decode_of_opcode hop] at h
  obtain rfl := Except.ok.inj h
  cases o <;>
    simp [Instr.wellFormed, byte_fits, windowBytes, hop, Instr.len, Instr.opcode, Opcode.len, encode,
      fieldByte_byte, imm_low, imm_high]

/-- A window that begins with the encoding of a well-formed instruction decodes to it. -/
theorem decode_of_encode {w : Word} {i : Instr} (hw : i.wellFormed = true)
    (h : (windowBytes w).take i.len = encode i) : decode w = .ok i := by
  have hop : byteOf w 0 = i.opcode.byte := by
    cases i <;> exact List.head_eq_of_cons_eq h
  rw [decode_of_opcode hop]
  cases i <;>
    simp_all [Instr.wellFormed, windowBytes, Instr.len, Instr.opcode, Opcode.len, encode, fieldByte_toNat,
      imm_of_bytes]

theorem encode_length (i : Instr) : (encode i).length = i.len := by
  cases i <;> rfl

/-- The same, byte by byte. -/
theorem decode_of_bytes {w : Word} {i : Instr} (hw : i.wellFormed = true)
    (h : ∀ k (hk : k < (encode i).length), byteOf w k = (encode i)[k]) : decode w = .ok i := by
  have hlen : i.len ≤ Config.window := (Opcode.len_bounds i.opcode).2
  refine decode_of_encode hw (List.ext_getElem ?_ fun k _ hk => ?_)
  · simp [windowBytes_eq_map, encode_length, hlen]
  · simpa [windowBytes_eq_map] using h k hk

/-! ### The round trip -/

/-- Byte `k` of the window over a byte list. -/
theorem byteOf_windowOf (bs : List Byte) {k : Nat} (hk : k < Config.window) :
    byteOf (windowOf bs) k = bs.getD k 0 := by
  obtain rfl | rfl | rfl | rfl : k = 0 ∨ k = 1 ∨ k = 2 ∨ k = 3 := by
    simp only [Config.window] at hk
    omega
  · exact byteOf_wordOfBytes_zero _ _ _ _
  · exact byteOf_wordOfBytes_one _ _ _ _
  · exact byteOf_wordOfBytes_two _ _ _ _
  · exact byteOf_wordOfBytes_three _ _ _ _

/-- Settles O12: the window over the encoding and what follows begins with the encoding. -/
theorem decodeInvertsEncode : Obligations.DecodeInvertsEncode := by
  intro i rest hw
  refine decode_of_bytes hw fun k hk => ?_
  have hwin : k < Config.window := by
    have := (Opcode.len_bounds i.opcode).2
    rw [encode_length] at hk
    exact Nat.lt_of_lt_of_le hk this
  rw [byteOf_windowOf _ hwin, List.getD_append _ _ _ _ hk, List.getD_eq_getElem _ _ hk]

/-- Settles O13, by `encode_of_decode` at the window of the four bytes. -/
theorem encodeInvertsDecode : Obligations.EncodeInvertsDecode := by
  intro b0 b1 b2 b3 i h
  obtain ⟨hw, henc⟩ := encode_of_decode h
  have hbytes : windowBytes (windowOf [b0, b1, b2, b3]) = [b0, b1, b2, b3] := by
    simp [windowBytes, windowOf]
  exact ⟨hw, by rw [← henc, hbytes]⟩

/-- A byte of a word below bit `8 * n` is decided by the word modulo `2 ^ (8 * n)`. -/
theorem byteOf_congr_mod {w w' : Word} {n k : Nat} (hk : k < n)
    (h : w'.toNat % 2 ^ (8 * n) = w.toNat % 2 ^ (8 * n)) : byteOf w' k = byteOf w k := by
  have low (v : Word) : (byteOf v k).toNat = v.toNat % 2 ^ (8 * n) / 2 ^ (8 * k) % 256 := by
    have e : 8 * n = 8 * k + (8 + 8 * (n - k - 1)) := by omega
    rw [byteOf_toNat, e, pow_add 2 (8 * k), Nat.mod_mul_right_div_self, pow_add]
    exact (Nat.mod_mul_right_mod _ (2 ^ 8) _).symm
  exact BitVec.eq_of_toNat_eq (by rw [low, low, h])

/-- Settles O14: the windows agree in the bytes that the encoding is compared with. -/
theorem decodeIgnoresTrailingBytes : Obligations.DecodeIgnoresTrailingBytes := by
  intro w w' i hd h
  obtain ⟨hw, henc⟩ := encode_of_decode hd
  refine decode_of_bytes hw fun k hk => ?_
  rw [byteOf_congr_mod (encode_length i ▸ hk) h]
  simp [← henc, windowBytes_eq_map]

namespace Machine

/-! ### The instruction at IP -/

/-- Settles O15. -/
theorem stepExecutesDecodedInstruction : Obligations.StepExecutesDecodedInstruction :=
  fun _ _ hip hd => step_of_fetchDecode (State.fetchDecode_eq_some.2 ⟨hip, hd⟩)

/-- Byte `k` of the fetch window is the byte fetched at IP + k (40_step.md rule R103). -/
theorem State.byteOf_fetchWindow (s : State) {k : Nat} (hk : k < Config.window) :
    byteOf s.fetchWindow k = s.fetchByte (s.ip.toNat + k) := by
  have e : s.fetchWindow = windowOf ((List.range Config.window).map fun k => s.fetchByte (s.ip.toNat + k)) :=
    rfl
  rw [e, byteOf_windowOf _ hk]
  simp [hk]

/-- Settles O16: no byte of the encoding is padding, so the window begins with it. -/
theorem stepExecutesInstructionInArena : Obligations.StepExecutesInstructionInArena := by
  intro s i hw hend hbytes
  obtain ⟨hpos, hle⟩ := Opcode.len_bounds i.opcode
  have hip : s.ip.toNat < Config.memSize := Nat.lt_of_lt_of_le (Nat.lt_add_of_pos_right hpos) hend
  refine stepExecutesDecodedInstruction s i hip (decode_of_bytes hw fun k hk => ?_)
  have hklen : k < i.len := encode_length i ▸ hk
  have hmem : s.ip.toNat + k < Config.memSize := by
    simp only [Config.memSize]
    omega
  rw [s.byteOf_fetchWindow (Nat.lt_of_lt_of_le hklen hle), ← hbytes k hk, State.fetchByte, if_pos hmem]

/-- Settles O26: the failed step left the state it started from. -/
theorem unknownInstructionRepeats : Obligations.UnknownInstructionRepeats := by
  intro s l h
  obtain ⟨-, rfl⟩ := step_unknownInstruction_iff.1 h
  exact h

/-- Settles O11: seven closed windows, decoded. -/
theorem writtenWordsDecode : Obligations.WrittenWordsDecode := by
  refine ⟨?_, ?_, ?_, ?_, ?_, ?_, ?_⟩ <;> decide

end Machine
end Sys2Proof
end

section
/-! What a step can end in (40_step.md sections 4 to 7): each outcome of an instruction read backwards, then
the rules over completed, failed and silent steps. -/

namespace Sys2Proof.Machine

/-! ### The outcomes of an instruction, read backwards -/

/-- What a completed output leaves: the advanced state, one transaction with 1 to 11 bytes that the sink
answered `OK`, and the answer `Continue`. -/
def Sends (i : Instr) (s t : State) : Prop :=
  s.sink.answer = .ok ∧ ∃ bs : List Byte, 1 ≤ bs.length ∧ bs.length ≤ 11 ∧
    t = ((s.advanced i.len).setSink (s.sink.take bs)).setAnswered (some .continued)

/-- A completed instruction passed its checks; an output has then sent its bytes, any other has had its own
effect. -/
theorem exec_eq_next {i : Instr} {s t : State} (h : exec i s = .next t) :
    Checked i s ∧ ((isOutput i = false ∧ Completes i s t) ∨ (isOutput i = true ∧ Sends i s t)) := by
  cases exec_cases i s with
  | advanceFails _ hx => simp [hx] at h
  | operandFails _ _ hx => simp [hx] at h
  | completes hc ho u hu hx =>
    obtain rfl := Host.Outcome.next.inj (hx.symm.trans h)
    exact ⟨hc, .inl ⟨ho, hu⟩⟩
  | outputs hc ho bs h1 h11 hx =>
    obtain ⟨ha, rfl⟩ := sinkWrite_eq_next (hx.symm.trans h)
    exact ⟨hc, .inr ⟨ho, ha, bs, h1, h11, rfl⟩⟩

/-- What a failed instruction leaves: the state itself where the advance is refused, the advanced state where
an operand check fails, and the advanced state with some first bytes sent where the sink fails. -/
theorem exec_eq_error {i : Instr} {s l : State} {e : ErrorKind} (h : exec i s = .fault (.error e l)) :
    (e = .memAddressOutOfRange ∧ l = s ∧ Config.memSize < s.ip.toNat + i.len) ∨
    (e = .memAddressOutOfRange ∧ s.ip.toNat + i.len ≤ Config.memSize ∧
      ((∃ f ∈ i.regFields, Config.nregs ≤ f) ∨ spanFails i s) ∧ l = s.advanced i.len) ∨
    (e = .writeError ∧ isOutput i = true ∧ ∃ (bs : List Byte) (k : Nat), s.sink.answer = .fail k ∧
      bs.length ≤ 11 ∧ l = (s.advanced i.len).setSink (s.sink.take (bs.take k))) := by
  cases exec_cases i s with
  | advanceFails ha hx =>
    obtain ⟨rfl, rfl⟩ := Fault.error.inj (Host.Outcome.fault.inj (hx.symm.trans h))
    exact .inl ⟨rfl, rfl, ha⟩
  | operandFails ha hf hx =>
    obtain ⟨rfl, rfl⟩ := Fault.error.inj (Host.Outcome.fault.inj (hx.symm.trans h))
    exact .inr (.inl ⟨rfl, ha, hf, rfl⟩)
  | completes _ _ _ _ hx => simp [hx] at h
  | outputs _ ho bs _ h11 hx =>
    obtain ⟨k, ha, rfl, rfl⟩ := sinkWrite_eq_error (hx.symm.trans h)
    exact .inr (.inr ⟨rfl, ho, bs, k, ha, h11, rfl⟩)

theorem sinkWrite_eq_silent_iff {bs : List Byte} {s : State} :
    sinkWrite bs s = .fault .sinkSilent ↔ s.sink.answer = .silent := by
  cases ha : s.sink.answer with
  | ok => simp [sinkWrite_ok ha]
  | fail k => simp [sinkWrite_fail ha]
  | silent => simp [sinkWrite_silent ha]

/-- An instruction hangs exactly where it is an output that hands its bytes to a sink that never answers. -/
theorem exec_eq_silent_iff {i : Instr} {s : State} :
    exec i s = .fault .sinkSilent ↔ Checked i s ∧ isOutput i = true ∧ s.sink.answer = .silent := by
  cases exec_cases i s with
  | advanceFails ha hx =>
    have hc : ¬ Checked i s := not_checked_iff.2 (.inl ha)
    simp [hx, hc]
  | operandFails _ hf hx =>
    have hc : ¬ Checked i s := not_checked_iff.2 (.inr hf)
    simp [hx, hc]
  | completes _ ho _ _ hx => simp [hx, ho]
  | outputs hc ho bs _ _ hx => simp [hx, hc, ho, sinkWrite_eq_silent_iff]

theorem sinkWrite_ne_refused (bs : List Byte) (s : State) (r : Refusal) : sinkWrite bs s ≠ .refused r := by
  cases ha : s.sink.answer with
  | ok => simp [sinkWrite_ok ha]
  | fail k => simp [sinkWrite_fail ha]
  | silent => simp [sinkWrite_silent ha]

theorem exec_ne_refused (i : Instr) (s : State) (r : Refusal) : exec i s ≠ .refused r := by
  cases exec_cases i s with
  | advanceFails _ hx => simp [hx]
  | operandFails _ _ hx => simp [hx]
  | completes _ _ _ _ hx => simp [hx]
  | outputs _ _ bs _ _ hx => simp [hx, sinkWrite_ne_refused]

/-- A completed step has executed an instruction. -/
theorem step_eq_next {s t : State} (h : step s = .next t) :
    ∃ i, s.fetchDecode = some i ∧ exec i s = .next t := by
  cases hd : s.fetchDecode with
  | none => simp [step_of_no_instruction hd] at h
  | some i => exact ⟨i, rfl, (step_of_fetchDecode hd).symm.trans h⟩

/-- Only an instruction can hang. -/
theorem step_eq_silent_iff {s : State} :
    step s = .fault .sinkSilent ↔ ∃ i, s.fetchDecode = some i ∧ exec i s = .fault .sinkSilent := by
  cases hd : s.fetchDecode with
  | none => simp [step_of_no_instruction hd]
  | some i => simp [step_of_fetchDecode hd]

/-! ### Every instruction has an outcome -/

/-- Settles O21, by the four ways of an instruction: the two failing ones contradict its checks. -/
theorem checkedInstructionCompletes : Obligations.CheckedInstructionCompletes := by
  intro i s hadv hregs hspan hsink
  have hc : Checked i s := ⟨hadv, hregs, hspan⟩
  cases exec_cases i s with
  | advanceFails ha _ => exact absurd hc (not_checked_iff.2 (.inl ha))
  | operandFails _ hf _ => exact absurd hc (not_checked_iff.2 (.inr hf))
  | completes _ _ t _ hx => exact ⟨t, hx⟩
  | outputs _ ho bs _ _ hx => exact ⟨_, hx.trans (sinkWrite_ok (hsink ho))⟩

/-- Settles O22: neither the missing instruction nor any meaning is a refusal. -/
theorem noStepIsRefused : Obligations.NoStepIsRefused := by
  intro s r
  cases hd : s.fetchDecode with
  | none => simp [step_of_no_instruction hd]
  | some i =>
    rw [step_of_fetchDecode hd]
    exact exec_ne_refused i s r

/-- Settles O23: a completed instruction has passed the advance check. -/
theorem advancePastArenaRefused : Obligations.AdvancePastArenaRefused := by
  refine ⟨fun i s h => exec_advance_fails h, fun s t h => ?_⟩
  obtain ⟨i, hd, hx⟩ := step_eq_next h
  obtain ⟨⟨hadv, -, -⟩, -⟩ := exec_eq_next hx
  exact ⟨i, hd, hadv⟩

/-- Settles O33: the instruction at IP hangs by `exec_eq_silent_iff`, and an output's checks are the two named. -/
theorem silentSinkExactlyHangs : Obligations.SilentSinkExactlyHangs := by
  intro s
  rw [step_eq_silent_iff]
  refine exists_congr fun i => and_congr_right fun _ => ?_
  rw [exec_eq_silent_iff, and_left_comm]
  refine and_congr_right fun ho => ?_
  rw [checked_of_isOutput ho, and_assoc]

/-! ### What a failed step leaves -/

/-- Settles O25: no instruction is the first row, and `exec_eq_error` gives the other three. -/
theorem failedStepLeavesTable : Obligations.FailedStepLeavesTable := by
  intro s e l h
  obtain ⟨he, -, hl⟩ | ⟨i, hd, hx⟩ := step_error_iff.1 h
  · exact .inl ⟨he, hl⟩
  · obtain ⟨he, hl, hadv⟩ | ⟨he, hadv, hf, rfl⟩ | ⟨he, ho, bs, k, ha, h11, rfl⟩ := exec_eq_error hx
    · exact .inr (.inl ⟨he, hl, i, hd, hadv⟩)
    · exact .inr (.inr (.inl ⟨he, i, hd, hadv, hf, s.ipAdvancedOnly_advanced i.len⟩))
    · exact .inr (.inr (.inr ⟨he, i, bs, k, hd, ho, s.reg_advanced i.len, rfl, rfl, ha, h11, rfl⟩))

/-! ### What a completed step leaves -/

theorem exec_next_reg {i : Instr} {s t : State} {r : RegIdx} (hx : exec i s = .next t)
    (hr : destField i ≠ some r.val) : t.reg r = s.regAfter i.len r := by
  rw [s.regAfter_eq]
  obtain ⟨-, ⟨-, -, -, -, -, hregs⟩ | ⟨-, -, bs, -, -, rfl⟩⟩ := exec_eq_next hx
  · exact hregs r hr
  · rfl

/-- Settles O28. -/
theorem stepChangesOnlyDestinationAndIp : Obligations.StepChangesOnlyDestinationAndIp :=
  fun _ _ _ hd h _ hr => exec_next_reg ((step_of_fetchDecode hd).symm.trans h) hr

/-- Settles O29: IP is then the advanced one, which the advance check bounds. -/
theorem ipLeavesArenaOnlyByWrite : Obligations.IpLeavesArenaOnlyByWrite := by
  intro s t i hd h hdest
  have hx := (step_of_fetchDecode hd).symm.trans h
  obtain ⟨⟨hadv, -, -⟩, -⟩ := exec_eq_next hx
  have hip : t.ip = (s.advanced i.len).ip := (exec_next_reg hx hdest).trans (s.regAfter_eq i.len ipReg)
  rw [hip, s.ip_advanced i.len hadv]
  exact ⟨rfl, hadv⟩

/-- Settles O30: an output makes its one transaction, any other instruction leaves the sink. -/
theorem sinkIsAppendOnly : Obligations.SinkIsAppendOnly := by
  intro s t i hd h
  have hx := (step_of_fetchDecode hd).symm.trans h
  obtain ⟨-, ⟨ho, hsink, -⟩ | ⟨ho, -, bs, h1, h11, rfl⟩⟩ := exec_eq_next hx
  · exact ⟨by simp [ho], fun _ => hsink⟩
  · exact ⟨fun _ => ⟨bs, rfl, h1, h11, rfl, rfl⟩, by simp [ho]⟩

/-- A completed instruction answers `Terminated` if it is exit and `Continue` otherwise (rule R112). -/
theorem exec_next_answered {i : Instr} {s t : State} (hx : exec i s = .next t) :
    t.answered = some (if i = .exit then .terminated else .continued) := by
  obtain ⟨-, ⟨-, -, hans, -⟩ | ⟨ho, -, bs, -, -, rfl⟩⟩ := exec_eq_next hx
  · exact hans
  · have hne : i ≠ .exit := by
      rintro rfl
      cases ho
    simp [hne]

/-- Settles O34: a failed step leaves the arena as it was, a completed one keeps the form, the store by
`Memory.wf_write32` within its span. -/
theorem stepKeepsArenaCanonical : Obligations.StepKeepsArenaCanonical := by
  intro s hs
  refine ⟨fun t h => ?_, fun e l h => ?_⟩
  · obtain ⟨i, -, hx⟩ := step_eq_next h
    obtain ⟨-, ⟨-, -, -, -, hinv, -⟩ | ⟨-, -, bs, -, -, rfl⟩⟩ := exec_eq_next hx
    · exact hinv hs
    · exact hs
  · show l.mem.wf
    rw [step_error_mem h]
    exact hs

end Sys2Proof.Machine
end

section
/-! What a step may depend on (40_step.md section 7, 92_eei_decisions.md D9 and D14): the registers and the
arena decide which of three ways an instruction goes, and the sink and the last answer do not enter before
the transaction of an output. -/

namespace Sys2Proof.Machine

/-! ### The same core before another sink -/

/-- The core of `s` (its registers and its arena) before the sink `k` and after the answer `o`. -/
def State.facing (s : State) (k : Sink) (o : Option StepAnswer) : State :=
  { s with sink := k, answered := o }

theorem State.eq_facing {s u : State} (hr : u.regs = s.regs) (hm : u.mem = s.mem) :
    u = s.facing u.sink u.answered := by
  rw [State.facing, ← hr, ← hm]

/-- The fetch unit and the decoder read the core only. -/
theorem State.fetchDecode_facing (s : State) (k : Sink) (o : Option StepAnswer) :
    (s.facing k o).fetchDecode = s.fetchDecode := rfl

/-! ### What the core decides -/

/-- The way of `f` from the core of `s` is one of three, with its data, whatever the sink and the last answer:
a failed check, a completion, or, where `out` allows it, a transaction with the sink. -/
inductive CoreDecides (out : Bool) (s : State) (f : State → Result) : Prop where
  | fails (l : State)
      (h : ∀ k o, f (s.facing k o) = .fault (.error .memAddressOutOfRange (l.facing k o)))
  | completes (t : State) (a : StepAnswer) (h : ∀ k o, f (s.facing k o) = .next (t.facing k (some a)))
  | outputs (ho : out = true) (l : State) (bs : List Byte)
      (h : ∀ k o, f (s.facing k o) = sinkWrite bs (l.facing k o))

/-- A phase that only hands the core `u` on to `g` decides as `g` does. -/
theorem CoreDecides.of_eq {out : Bool} {s u : State} {f g : State → Result} (hg : CoreDecides out u g)
    (e : ∀ k o, f (s.facing k o) = g (u.facing k o)) : CoreDecides out s f := by
  cases hg with
  | fails l h => exact .fails l fun k o => (e k o).trans (h k o)
  | completes t a h => exact .completes t a fun k o => (e k o).trans (h k o)
  | outputs ho l bs h => exact .outputs ho l bs fun k o => (e k o).trans (h k o)

theorem coreDecides_withAdvance {out : Bool} {s : State} {n : Nat} {g : State → Result}
    (hg : CoreDecides out (s.advanced n) g) : CoreDecides out s fun u => withAdvance n u g := by
  by_cases h : s.ip.toNat + n ≤ Config.memSize
  · exact hg.of_eq fun k o => withAdvance_ok (s := s.facing k o) h g
  · exact .fails s fun k o => withAdvance_fail (s := s.facing k o) (Nat.not_le.1 h) g

theorem coreDecides_withReg {out : Bool} {s : State} {f : Nat} {g : RegIdx → State → Result}
    (hg : ∀ i, CoreDecides out s (g i)) : CoreDecides out s fun u => withReg f u fun i => g i u := by
  by_cases h : f < Config.nregs
  · exact (hg ⟨f, h⟩).of_eq fun _ _ => withReg_ok h _
  · exact .fails s fun _ _ => withReg_fail (Nat.not_lt.1 h) _

theorem coreDecides_withSpan {out : Bool} {s : State} {p : RegIdx} {g : Nat → State → Result}
    (hg : ∀ a, CoreDecides out s (g a)) :
    CoreDecides out s fun u => withSpan (u.reg p) u fun a => g a u := by
  by_cases h : (s.reg p).toNat ≤ 4092
  · exact (hg (s.reg p).toNat).of_eq fun k o => withSpan_ok (s := s.facing k o) h _
  · exact .fails s fun k o => withSpan_fail (s := s.facing k o) (Nat.not_le.1 h) _

theorem coreDecides_finish {out : Bool} {s : State} (a : StepAnswer) {g : State → State}
    (hg : ∀ k o, g (s.facing k o) = (g s).facing k o) : CoreDecides out s fun u => finish a (g u) :=
  .completes (g s) a fun k o => by rw [hg]; rfl

theorem coreDecides_sinkWrite {s : State} {g : State → List Byte}
    (hg : ∀ k o, g (s.facing k o) = g s) : CoreDecides true s fun u => sinkWrite (g u) u :=
  .outputs rfl s (g s) fun k o => by rw [hg]

/-- The registers and the arena alone decide what an instruction does up to its transaction. -/
theorem coreDecides_exec (i : Instr) (s : State) : CoreDecides (isOutput i) s (exec i) := by
  cases i with
  | movif rd rs rc =>
    change CoreDecides false s (execMovif rd rs rc)
    refine coreDecides_withAdvance <| coreDecides_withReg fun d => coreDecides_withReg fun r =>
      coreDecides_withReg fun c => coreDecides_finish _ fun k o => ?_
    change (if nz ((s.advanced _).reg c) then _ else _) = _
    split <;> rfl
  | store ri rj =>
    change CoreDecides false s (execStore ri rj)
    exact coreDecides_withAdvance <| coreDecides_withReg fun p => coreDecides_withReg fun v =>
      coreDecides_withSpan fun a => coreDecides_finish _ fun _ _ => rfl
  | load ri rj =>
    change CoreDecides false s (execLoad ri rj)
    exact coreDecides_withAdvance <| coreDecides_withReg fun d => coreDecides_withReg fun p =>
      coreDecides_withSpan fun a => coreDecides_finish _ fun _ _ => rfl
  | li ri imm =>
    change CoreDecides false s (execLi ri imm)
    exact coreDecides_withAdvance <| coreDecides_withReg fun d => coreDecides_finish _ fun _ _ => rfl
  | sub rd ra rb =>
    change CoreDecides false s (execSub rd ra rb)
    exact coreDecides_withAdvance <| coreDecides_withReg fun d => coreDecides_withReg fun a =>
      coreDecides_withReg fun b => coreDecides_finish _ fun _ _ => rfl
  | outc ri =>
    change CoreDecides true s (execOutc ri)
    exact coreDecides_withAdvance <| coreDecides_withReg fun r => coreDecides_sinkWrite fun _ _ => rfl
  | exit =>
    change CoreDecides false s execExit
    exact coreDecides_withAdvance <| coreDecides_finish _ fun _ _ => rfl
  | outn ri =>
    change CoreDecides true s (execOutn ri)
    exact coreDecides_withAdvance <| coreDecides_withReg fun r => coreDecides_sinkWrite fun _ _ => rfl

/-! ### The last answer and the sink -/

/-- An instruction that completes does so alike whatever the step before it answered. -/
theorem exec_setAnswered {i : Instr} {s t : State} (h : exec i s = .next t) (o : Option StepAnswer) :
    exec i (s.setAnswered o) = .next t := by
  cases coreDecides_exec i s with
  | fails l hx => cases (hx s.sink s.answered).symm.trans h
  | completes u a hx => exact (hx s.sink o).trans ((hx s.sink s.answered).symm.trans h)
  | outputs _ l bs hx =>
    obtain ⟨ha, rfl⟩ := sinkWrite_eq_next ((hx s.sink s.answered).symm.trans h)
    exact (hx s.sink o).trans (sinkWrite_ok ha)

/-- Settles O31: the answer by `exec_next_answered`; the earlier answer enters neither the fetch nor, by
`exec_setAnswered`, the instruction. -/
theorem terminatedExactlyByExit : Obligations.TerminatedExactlyByExit := by
  refine ⟨fun s t i hd h => exec_next_answered ((step_of_fetchDecode hd).symm.trans h), fun s t o h => ?_⟩
  obtain ⟨i, hd, hx⟩ := step_eq_next h
  have hd' : (s.setAnswered o).fetchDecode = some i := hd
  rw [step_of_fetchDecode hd', exec_setAnswered hx o]

/-- Two results are the same outcome, with the same registers, the same arena and, where the step completed,
the same answer. -/
def SameOutcome (r r' : Result) : Prop :=
  (∀ t, r = .next t → ∃ t', r' = .next t' ∧ t'.regs = t.regs ∧ t'.mem = t.mem ∧ t'.answered = t.answered) ∧
  (∀ e l, r = .fault (.error e l) → ∃ l', r' = .fault (.error e l') ∧ l'.regs = l.regs ∧ l'.mem = l.mem) ∧
  (r = .fault .sinkSilent → r' = .fault .sinkSilent)

theorem sameOutcome_next {t t' : State} (hr : t'.regs = t.regs) (hm : t'.mem = t.mem)
    (ha : t'.answered = t.answered) : SameOutcome (.next t) (.next t') := by
  simp [SameOutcome, hr, hm, ha]

theorem sameOutcome_error (e : ErrorKind) {l l' : State} (hr : l'.regs = l.regs) (hm : l'.mem = l.mem) :
    SameOutcome (.fault (.error e l)) (.fault (.error e l')) := by
  simp [SameOutcome, hr, hm]

theorem sameOutcome_silent : SameOutcome (.fault .sinkSilent) (.fault .sinkSilent) := by
  simp [SameOutcome]

/-- Of the sink, only its answer decides the outcome of a transaction. -/
theorem sinkWrite_sameOutcome (bs : List Byte) {l l' : State} (hr : l'.regs = l.regs) (hm : l'.mem = l.mem)
    (ha : l'.sink.answer = l.sink.answer) : SameOutcome (sinkWrite bs l) (sinkWrite bs l') := by
  cases h : l.sink.answer with
  | ok =>
    rw [sinkWrite_ok h, sinkWrite_ok (ha.trans h)]
    exact sameOutcome_next hr hm rfl
  | fail n =>
    rw [sinkWrite_fail h, sinkWrite_fail (ha.trans h)]
    exact sameOutcome_error _ hr hm
  | silent =>
    rw [sinkWrite_silent h, sinkWrite_silent (ha.trans h)]
    exact sameOutcome_silent

/-- Before another sink an instruction has the same outcome, if an output gets the same answer. -/
theorem exec_sameOutcome_facing (i : Instr) (s : State) (k : Sink) (o : Option StepAnswer)
    (ha : isOutput i = true → k.answer = s.sink.answer) :
    SameOutcome (exec i s) (exec i (s.facing k o)) := by
  change SameOutcome (exec i (s.facing s.sink s.answered)) _
  cases coreDecides_exec i s with
  | fails l hx =>
    rw [hx, hx]
    exact sameOutcome_error _ rfl rfl
  | completes t a hx =>
    rw [hx, hx]
    exact sameOutcome_next rfl rfl rfl
  | outputs ho l bs hx =>
    rw [hx, hx]
    exact sinkWrite_sameOutcome bs rfl rfl (ha ho)

/-- Settles O32: the other state is the same core before another sink, and fetches the same instruction. -/
theorem sinkReachesCoreOnlyByItsAnswer : Obligations.SinkReachesCoreOnlyByItsAnswer := by
  intro s u hr hm ha
  change SameOutcome (step s) (step u)
  have hu := State.eq_facing hr hm
  have hfetch : u.fetchDecode = s.fetchDecode := by rw [hu, s.fetchDecode_facing]
  cases hd : s.fetchDecode with
  | none =>
    rw [step_of_no_instruction hd, step_of_no_instruction (hfetch.trans hd)]
    exact sameOutcome_error _ hr hm
  | some i =>
    rw [step_of_fetchDecode hd, step_of_fetchDecode (hfetch.trans hd), hu]
    exact exec_sameOutcome_facing i s u.sink u.answered fun ho => ha ⟨i, hd, ho⟩

end Sys2Proof.Machine
end

section
/-! The arena as data and as memory (20_memory.md sections 1 and 7, 42_load_store.md section 3): the canonical
form is unique and LOAD builds it, and a stored word is what a load and a fetch see. -/

namespace Sys2Proof.Machine

/-! ### The canonical form -/

theorem Memory.read_cons_self (a : Nat) (b : Byte) (m : Memory) : Memory.read ((a, b) :: m) a = b := by
  simp [Memory.read]

theorem Memory.read_cons_ne {a x : Nat} (h : x ≠ a) (b : Byte) (m : Memory) :
    Memory.read ((a, b) :: m) x = Memory.read m x := by
  simp [Memory.read, h]

/-- The first entry of a canonical arena stands at or below any offset that does not read as unlisted. -/
theorem Memory.head_le_of_read_ne {a x : Nat} {b : Byte} {m : Memory} (h : Memory.wf ((a, b) :: m))
    (hx : Memory.read ((a, b) :: m) x ≠ unlisted) : a ≤ x := by
  obtain ⟨hlt, -, -⟩ := Memory.wf_cons.1 h
  by_contra hxa
  refine hx (Memory.read_below ?_)
  simp only [List.forall_mem_cons]
  exact ⟨by omega, fun d hd => by have := hlt d hd; omega⟩

/-- Settles O35, by induction over both arenas: the first entries have the same offset, each being the lowest
that holds a byte, so the same byte; past them the tails read alike. -/
theorem canonicalArenaIsItsBytes : Obligations.CanonicalArenaIsItsBytes := by
  intro m m' hm hm' hread
  induction m generalizing m' with
  | nil =>
    cases m' with
    | nil => rfl
    | cons c' m' =>
      obtain ⟨a', b'⟩ := c'
      obtain ⟨-, ⟨ha', hb'⟩, -⟩ := Memory.wf_cons.1 hm'
      exact absurd (Memory.read_cons_self a' b' m' ▸ hread a' ha').symm hb'
  | cons c m ih =>
    obtain ⟨a, b⟩ := c
    obtain ⟨hlt, ⟨ha, hb⟩, hwf⟩ := Memory.wf_cons.1 hm
    have hself := Memory.read_cons_self a b m
    cases m' with
    | nil => exact absurd (hself ▸ hread a ha) hb
    | cons c' m' =>
      obtain ⟨a', b'⟩ := c'
      obtain ⟨hlt', ⟨ha', hb'⟩, hwf'⟩ := Memory.wf_cons.1 hm'
      have hself' := Memory.read_cons_self a' b' m'
      have hle : a ≤ a' := Memory.head_le_of_read_ne hm (by rw [hread a' ha', hself']; exact hb')
      have hle' : a' ≤ a := Memory.head_le_of_read_ne hm' (by rw [← hread a ha, hself]; exact hb)
      obtain rfl := Nat.le_antisymm hle hle'
      obtain rfl : b = b' := by rw [← hself, hread a ha, hself']
      refine congrArg _ (ih m' hwf hwf' fun x hx => ?_)
      by_cases hxa : x = a
      · rw [hxa, Memory.read_below hlt, Memory.read_below hlt']
      · rw [← Memory.read_cons_ne hxa b m, ← Memory.read_cons_ne hxa b m', hread x hx]

/-- Settles O42. -/
theorem resetArenaIsCanonical : Obligations.ResetArenaIsCanonical :=
  Memory.wf_nil

/-- Settles O43: LOAD grants only images that fit, and their arena is canonical by `Memory.wf_ofImage`. -/
theorem loadedArenaIsCanonical : Obligations.LoadedArenaIsCanonical := by
  intro image k t h
  by_cases hlen : image.length ≤ Config.memSize
  · obtain rfl := Except.ok.inj ((loadPort_eq_ok k hlen).symm.trans h)
    exact Memory.wf_ofImage hlen
  · cases (loadPort_eq_error_iff.2 ⟨Nat.not_le.1 hlen, rfl⟩).symm.trans h

/-! ### Reading a stored word -/

/-- A 4-byte read reads its four bytes and nothing else. -/
theorem Memory.read32_congr {m m' : Memory} {a : Nat} (h : ∀ k, k < 4 → m'.read (a + k) = m.read (a + k)) :
    m'.read32 a = m.read32 a := by
  have h0 : m'.read a = m.read a := h 0 (by decide)
  rw [Memory.read32, Memory.read32, h0, h 1 (by decide), h 2 (by decide), h 3 (by decide)]

/-- A 4-byte read gives what a 4-byte write at its address wrote. -/
theorem Memory.read32_write32 {m : Memory} (h : m.wf) {a : Nat} (ha : a + 3 < Config.memSize) (v : Word) :
    (m.write32 a v).read32 a = v := by
  simp [Memory.read32, Memory.read_write32 h ha, wordOfBytes_byteOf]

/-- A store that completed has passed its checks: its address is at most 4092, and there it has left its
word. -/
theorem execStore_eq_next {s t : State} {p v : RegIdx} (h : exec (.store p.val v.val) s = .next t) :
    (s.regAfter 3 p).toNat ≤ 4092 ∧ t.mem = s.mem.write32 (s.regAfter 3 p).toNat (s.regAfter 3 v) := by
  obtain ⟨⟨hadv, -, hspan⟩, -⟩ := exec_eq_next h
  rw [spanFails_iff (p := p) rfl, Nat.not_lt] at hspan
  obtain rfl := Host.Outcome.next.inj ((execStore_ok p v hadv hspan).symm.trans h)
  rw [s.regAfter_eq, s.regAfter_eq]
  exact ⟨hspan, rfl⟩

/-- From a canonical arena, the word at the address of a completed store is the stored one. -/
theorem read32_of_execStore {s t : State} {p v : RegIdx} (hs : s.Inv)
    (h : exec (.store p.val v.val) s = .next t) :
    t.mem.read32 (s.regAfter 3 p).toNat = s.regAfter 3 v := by
  obtain ⟨ha, hmem⟩ := execStore_eq_next h
  rw [hmem]
  exact Memory.read32_write32 hs (Nat.lt_of_le_of_lt (Nat.add_le_add_right ha 3) (by decide)) _

/-- Settles O36: the load's span is the store's, and its word the stored one. -/
theorem loadAfterStoreGivesStoredWord : Obligations.LoadAfterStoreGivesStoredWord := by
  intro s t u p v d q hs h hbytes hadv hq
  obtain ⟨ha, -⟩ := execStore_eq_next h
  rw [u.regAfter_eq] at hq
  rw [← hq] at ha
  refine ⟨_, execLoad_ok d q hadv ha, ?_⟩
  rw [hq, Memory.read32_congr hbytes, read32_of_execStore hs h]
  simp

/-- Inside the arena a fetch is not padded (40_step.md rule R103). -/
theorem State.fetchByte_of_lt {s : State} {a : Nat} (h : a < Config.memSize) :
    s.fetchByte a = s.mem.read a :=
  if_pos h

/-- Where the whole window lies in the arena, the fetch is a 4-byte read (20_memory.md section 7). -/
theorem State.fetchWindow_eq_read32 {s : State} (h : s.ip.toNat + 3 < Config.memSize) :
    s.fetchWindow = s.mem.read32 s.ip.toNat := by
  simp (disch := omega) only [State.fetchWindow, Memory.read32, State.fetchByte_of_lt]

/-- Settles O37: fetch and store address the one arena. -/
theorem fetchSeesEarlierStore : Obligations.FetchSeesEarlierStore := by
  intro s t u p v hs h hmem hip
  obtain ⟨ha, -⟩ := execStore_eq_next h
  have hwin : u.ip.toNat + 3 < Config.memSize := by
    simp only [hip, Config.memSize]
    omega
  rw [State.fetchWindow_eq_read32 hwin, hip, hmem, read32_of_execStore hs h]

end Sys2Proof.Machine
end

section
/-! The output instructions (43_output_exit.md): the bytes of a character and of a decimal number, then each
instruction whole. -/

namespace Sys2Proof.Machine

/-! ### The bytes of a character -/

/-- The bytes of a character by arithmetic on its code point (rule R184). -/
theorem utf8_eq (c : Byte) :
    utf8 c = if c.toNat < 0x80 then [BitVec.ofNat 8 c.toNat]
      else [BitVec.ofNat 8 (0xC0 + c.toNat / 64), BitVec.ofNat 8 (0x80 + c.toNat % 64)] := by
  have hlead : c >>> 6 = BitVec.ofNat 8 (c.toNat / 64) := by
    apply BitVec.eq_of_toNat_eq
    simp only [BitVec.toNat_ushiftRight, Nat.shiftRight_eq_div_pow, BitVec.toNat_ofNat]
    omega
  have htrail : c &&& 0x3F = BitVec.ofNat 8 (c.toNat % 64) := by
    apply BitVec.eq_of_toNat_eq
    rw [BitVec.toNat_and, BitVec.toNat_ofNat]
    exact (Nat.and_two_pow_sub_one_eq_mod c.toNat 6).trans (by omega)
  rw [utf8, hlead, htrail, BitVec.ofNat_toNat, BitVec.setWidth_eq, BitVec.ofNat_add, BitVec.ofNat_add]
  rfl

/-- Settles O39: a code point below 256 takes the encoder's first branch below 0x80 and its second from there
on, and those are the two cases of `utf8_eq`. -/
theorem outcBytesAreUtf8 : Obligations.OutcBytesAreUtf8 := by
  intro c
  have hlt := c.isLt
  have hchar : (Char.ofNat c.toNat).val.toNat = c.toNat := by
    have hvalid : c.toNat.isValidChar := .inl (by omega)
    exact (Char.toNat_ofNat c.toNat).trans (if_pos hvalid)
  rw [utf8_eq, String.utf8EncodeChar, hchar]
  by_cases h : c.toNat < 0x80
  · simp [h, Nat.le_of_lt_succ h]
  · have h1 : ¬ c.toNat ≤ 0x7F := by omega
    have h2 : c.toNat ≤ 0x7FF := by omega
    simp only [if_neg h, if_neg h1, if_pos h2, List.map_cons, List.map_nil, BitVec.toNat_ofNat,
      UInt8.toNat_ofNat', List.cons.injEq, and_true]
    omega

/-! ### The digits of a number -/

/-- The digits are the library's base-10 digits, most significant first, and "0" for zero (rule R185). -/
theorem digits_eq {fuel m : Nat} (h : m < 10 ^ (fuel + 1)) :
    digits (fuel + 1) m = if m = 0 then [0x30] else (Nat.digits 10 m).reverse.map digitByte := by
  induction fuel generalizing m with
  | zero =>
    have hm : m < 10 := by omega
    by_cases h0 : m = 0
    · simp [digits, h0, digitByte]
    · simp [digits, hm, h0]
  | succ fuel ih =>
    rw [digits]
    by_cases hm : m < 10
    · by_cases h0 : m = 0
      · simp [h0, digitByte]
      · simp [hm, h0]
    · have h0 : m ≠ 0 := by omega
      have hq : m / 10 ≠ 0 := by omega
      have hlt : m / 10 < 10 ^ (fuel + 1) := by omega
      rw [if_neg hm, if_neg h0, ih hlt, if_neg hq, Nat.digits_def' (by decide) (Nat.pos_of_ne_zero h0)]
      simp

/-- Ten digits are enough for every number a register holds. -/
theorem s32_natAbs_lt (v : Word) : (s32 v).natAbs < 10 ^ maxDigits := by
  have := BitVec.toInt_lt (x := v)
  have := BitVec.le_toInt v
  simp only [s32, maxDigits]
  omega

/-- The text of a register: its sign, then the digits of its magnitude (rule R185). -/
theorem decimal_s32 (v : Word) :
    decimal (s32 v) = (if s32 v < 0 then [0x2D] else []) ++
      (if s32 v = 0 then [0x30] else (Nat.digits 10 (s32 v).natAbs).reverse.map digitByte) := by
  have hdigits := digits_eq (s32_natAbs_lt v)
  simp only [Int.natAbs_eq_zero] at hdigits
  rw [decimal, show maxDigits = 9 + 1 from rfl, hdigits]
  split <;> rfl

/-- The two's-complement reading by arithmetic (00_scope.md rule R9). -/
theorem s32_eq (v : Word) :
    s32 v = if v.toNat < 2 ^ 31 then (v.toNat : Int) else (v.toNat : Int) - 2 ^ 32 := by
  have hneg : 2 * v.toNat < 2 ^ 32 ↔ v.toNat < 2 ^ 31 := by omega
  rw [s32, BitVec.toInt_eq_toNat_cond]
  simp only [hneg]
  rfl

/-! ### The transaction of an output -/

/-- What `r` is by the sink's answer when an output has handed it `bs` after an advance by `n`: all of them sent
at `OK`, the first ones at `FAIL`, and in both cases nothing else changed but IP (rule R183). -/
def OutputOf (s : State) (n : Nat) (bs : List Byte) (r : Result) : Prop :=
  (s.sink.answer = .ok →
    ∃ t, r = .next t ∧ (∀ i, t.reg i = s.regAfter n i) ∧ (∀ x, t.byteAt x = s.byteAt x) ∧
      t.sink.taken = s.sink.taken ++ bs ∧ t.answered = some .continued) ∧
  (∀ k, s.sink.answer = .fail k →
    ∃ l, r = .fault (.error .writeError l) ∧ (∀ i, l.reg i = s.regAfter n i) ∧
      (∀ x, l.byteAt x = s.byteAt x) ∧ l.sink.taken = s.sink.taken ++ bs.take k ∧ l.answered = s.answered)

theorem outputOf_sinkWrite (s : State) (n : Nat) (bs : List Byte) :
    OutputOf s n bs (sinkWrite bs (s.advanced n)) :=
  ⟨fun ha => ⟨_, sinkWrite_ok ha, s.reg_advanced n, fun _ => rfl, rfl, rfl⟩,
    fun _ ha => ⟨_, sinkWrite_fail ha, s.reg_advanced n, fun _ => rfl, rfl, rfl⟩⟩

/-! ### The two instructions -/

/-- Settles O6, by the advance, the field check and the sink's answer; the bytes by `utf8_eq`. -/
theorem outcSendsOneUtf8Character : Obligations.OutcSendsOneUtf8Character := by
  refine ⟨fun _ _ => rfl, fun s ri h => exec_advance_fails h, fun s ri h hf => ?_,
    fun s r c bs h hc hbs => ?_⟩
  · exact ⟨s.advanced 2, execOutc_operand_fails h hf, s.ipAdvancedOnly_advanced 2⟩
  · change OutputOf s 2 bs (execOutc r.val s)
    have hlow : c = (byteOf (s.regAfter 2 r) 0).toNat := hc.trans (by simp [byteOf_toNat])
    rw [hlow, ← utf8_eq, s.regAfter_eq] at hbs
    rw [hbs, execOutc_ok r h]
    exact outputOf_sinkWrite s 2 _

/-- Settles O8, likewise; the number by `s32_eq`, its text by `decimal_s32`. -/
theorem outnSendsSignedDecimalText : Obligations.OutnSendsSignedDecimalText := by
  refine ⟨fun _ _ => rfl, fun s ri h => exec_advance_fails h, fun s ri h hf => ?_,
    fun s r n bs h hn hbs => ?_⟩
  · exact ⟨s.advanced 2, execOutn_operand_fails h hf, s.ipAdvancedOnly_advanced 2⟩
  · change OutputOf s 2 bs (execOutn r.val s)
    obtain rfl : n = s32 (s.regAfter 2 r) := hn.trans (s32_eq _).symm
    have htext : bs = decimal (s32 ((s.advanced 2).reg r)) := by
      rw [hbs, ← s.regAfter_eq, decimal_s32]
      rfl
    rw [htext, execOutn_ok r h]
    exact outputOf_sinkWrite s 2 _

end Sys2Proof.Machine
end

section
/-! The pseudo-instructions (30_encoding.md section 6): the instruction each stands for, at the operands it
fixes. -/

namespace Sys2Proof.Machine

/-- Past the arena there is no instruction (40_step.md rule R102). -/
theorem step_past_arena {s : State} (h : Config.memSize ≤ s.ip.toNat) :
    step s = .fault (.error .unknownInstruction s) :=
  step_of_no_instruction (State.fetchDecode_eq_none_iff.2 (.inl h))

theorem sext16_toInt (imm : BitVec 16) : (sext16 imm).toInt = imm.toInt :=
  BitVec.toInt_signExtend_of_le (by decide)

/-- A word that reads as a negative number, or as one from the arena's size on, is past the arena. -/
theorem memSize_le_of_toInt {v : Word} (h : v.toInt < 0 ∨ 4096 ≤ v.toInt) : Config.memSize ≤ v.toNat := by
  rw [BitVec.toInt_eq_toNat_cond] at h
  simp only [Config.memSize]
  split at h <;> omega

/-- jmp: `li r0`. -/
theorem jmp_acts (s : State) (imm : BitVec 16) (h : s.ip.toNat + 4 ≤ Config.memSize) :
    ∃ t, exec (.li 0 imm) s = .next t ∧ t.ip.toInt = imm.toInt ∧
      s.leadsTo t (fun i => if i = 0 then t.ip else s.reg i) .continued ∧
      (imm.toInt < 0 ∨ 4096 ≤ imm.toInt → step t = .fault (.error .unknownInstruction t)) := by
  have hlead := s.leadsTo_setReg 4 0 (sext16 imm) .continued
  have hx := execLi_ok 0 imm h
  generalize ((s.advanced 4).setReg 0 (sext16 imm)).setAnswered (some .continued) = t at hlead hx
  obtain ⟨hregs, hframe⟩ := hlead
  have hip : t.ip = sext16 imm := hregs 0
  have htarget : t.ip.toInt = imm.toInt := by rw [hip, sext16_toInt]
  refine ⟨t, hx, htarget, ⟨fun i => ?_, hframe⟩, fun ht => step_past_arena ?_⟩
  · by_cases hi : i = 0
    · simp [hregs, hip, hi]
    · simp [hregs, hi, State.regAfter]
  · exact memSize_le_of_toInt (htarget ▸ ht)

theorem sub32_self (v : Word) : sub32 v v = 0 := BitVec.sub_self v

theorem sub32_zero (v : Word) : sub32 v 0 = v := BitVec.sub_zero v

theorem movif_leadsTo (s : State) (d r c : RegIdx) (h : s.ip.toNat + 4 ≤ Config.memSize) :
    ∃ t, exec (.movif d.val r.val c.val) s = .next t ∧
      s.leadsTo t (fun i => if s.regAfter 4 c ≠ 0 ∧ i = d then s.regAfter 4 r else s.regAfter 4 i)
        .continued :=
  ⟨_, execMovif_ok d r c h, leadsTo_movif s d r c⟩

theorem sub_leadsTo (s : State) (d a b : RegIdx) (h : s.ip.toNat + 4 ≤ Config.memSize) :
    ∃ t, exec (.sub d.val a.val b.val) s = .next t ∧
      s.leadsTo t (fun i => if i = d then sub32 (s.regAfter 4 a) (s.regAfter 4 b) else s.regAfter 4 i)
        .continued := by
  rw [s.regAfter_eq 4 a, s.regAfter_eq 4 b]
  exact ⟨_, execSub_ok d a b h, s.leadsTo_setReg 4 d _ .continued⟩

/-- The advanced IP is not 0, so a move-if under r0 always moves. -/
theorem regAfter_zero_ne {s : State} {n : Nat} (hn : 0 < n) (h : s.ip.toNat + n ≤ Config.memSize) :
    s.regAfter n 0 ≠ 0 := by
  intro e
  have hip : (s.regAfter n 0).toNat = s.ip.toNat + n := by
    rw [s.regAfter_eq]
    exact s.ip_advanced n h
  have hzero : (0 : Word).toNat = 0 := rfl
  rw [e] at hip
  omega

/-- Settles O38, each pseudo-instruction as the instruction it stands for: mov's condition always holds, nop's
move changes nothing, clr and getip are differences with an equal and with a zero subtrahend. -/
theorem pseudoInstructionsAct : Obligations.PseudoInstructionsAct := by
  refine ⟨jmp_acts, fun s r d z h => ⟨?_, ?_, ?_, ?_, fun hz => ?_⟩, fun s h => ?_⟩
  · exact movif_leadsTo s 0 r z h
  · have hmov := movif_leadsTo s d r 0 h
    simp only [ne_eq, regAfter_zero_ne (by decide : 0 < 4) h, not_false_eq_true, true_and] at hmov
    exact hmov
  · have hnop := movif_leadsTo s r r r h
    have hself (i : RegIdx) :
        (if s.regAfter 4 r ≠ 0 ∧ i = r then s.regAfter 4 r else s.regAfter 4 i) = s.regAfter 4 i :=
      ite_eq_right_iff.2 fun hc => by rw [hc.2]
    simp only [hself] at hnop
    exact hnop
  · have hclr := sub_leadsTo s d r r h
    rw [sub32_self] at hclr
    exact hclr
  · have hgetip := sub_leadsTo s d 0 z h
    rw [hz, sub32_zero] at hgetip
    exact hgetip
  · exact ⟨_, execExit_ok h, s.leadsTo_advanced 1 .terminated⟩

end Sys2Proof.Machine
end

section
/-! Reset, the host ports and RUN (10_state.md sections 5 and 6, 40_step.md section 8): a run either continues
throughout or ends with its first step that does not. -/

namespace Sys2Proof.Machine

/-! ### Reset and the host ports -/

/-- Settles O44: the register file of reset is all 0 and its arena lists nothing. -/
theorem resetStateIsZero : Obligations.ResetStateIsZero :=
  ⟨State.reg_reset, State.reg_reset ipReg, fun _ => rfl⟩

theorem setRegPort_val (s : State) (j : RegIdx) (v : Word) : setRegPort j.val v s = .ok (s.setReg j v) :=
  dif_pos j.isLt

/-- Settles O45. -/
theorem setRegWritesOneRegister : Obligations.SetRegWritesOneRegister :=
  ⟨fun s j v => ⟨_, setRegPort_val s j v, fun i => s.reg_setReg j i v, rfl, rfl⟩,
    fun _ _ _ h => setRegPort_eq_error_iff.2 ⟨h, rfl⟩⟩

/-- Settles O46. -/
theorem viewsShowWholeState : Obligations.ViewsShowWholeState := by
  intro s
  refine ⟨by simp [regView], by simp [memView], fun i => ?_, fun a ha => ?_⟩
  · simp [regView, State.reg]
  · simp [memView, ha]

/-- Settles O49. -/
theorem errorCodesAreOneToFive : Obligations.ErrorCodesAreOneToFive := rfl

/-! ### RUN -/

/-- The step from `u` is the last of a run, which responds `a` with it, or hangs in it. -/
inductive EndsWith (u : State) : RunAnswer → Prop where
  | terminated (t : State) (h : step u = .next t) (ha : t.answered = some .terminated) :
      EndsWith u (.terminated t)
  | error (e : ErrorKind) (l : State) (h : step u = .fault (.error e l)) : EndsWith u (.error e l)
  | hung (h : step u = .fault .sinkSilent) : EndsWith u .hung

/-- A step answers `Continue` or ends the run. -/
theorem continues_or_endsWith (u : State) :
    (∃ t, step u = .next t ∧ t.answered = some .continued) ∨ ∃ a, EndsWith u a := by
  cases h : step u with
  | next t =>
    obtain ⟨i, -, hx⟩ := step_eq_next h
    have hans := exec_next_answered hx
    split at hans
    · exact .inr ⟨_, .terminated t h hans⟩
    · exact .inl ⟨t, rfl, hans⟩
  | fault r =>
    cases r with
    | error e l => exact .inr ⟨_, .error e l h⟩
    | sinkSilent => exact .inr ⟨_, .hung h⟩
  | refused r => exact absurd h (noStepIsRefused u r)

theorem run_succ_of_continued {s t : State} (n : Nat) (h : step s = .next t)
    (ha : t.answered = some .continued) : run (n + 1) s = run n t := by
  simp [run, h, ha]

theorem run_succ_of_endsWith {u : State} {a : RunAnswer} (n : Nat) (h : EndsWith u a) :
    run (n + 1) u = a := by
  cases h with
  | terminated t h ha => simp [run, h, ha]
  | error e l h => simp [run, h]
  | hung h => simp [run, h]

/-- Steps that answer `Continue` can be taken off the front of a run. -/
theorem run_add_of_continues {k : Nat} {s u : State} (h : Continues k s u) (m : Nat) :
    run (m + k) s = run m u := by
  induction k generalizing s with
  | zero =>
    obtain rfl : u = s := h
    rfl
  | succ k ih =>
    obtain ⟨t, hstep, hans, hrest⟩ := h
    exact (run_succ_of_continued (m + k) hstep hans).trans (ih hrest)

/-- A run that reaches an ending step answers as that step says, however much further one looks. -/
theorem run_eq_of_endsWith {n k : Nat} {s u : State} {a : RunAnswer} (hk : k < n) (hc : Continues k s u)
    (he : EndsWith u a) : run n s = a := by
  obtain ⟨m, rfl⟩ : ∃ m, n = (m + 1) + k := ⟨n - k - 1, by omega⟩
  rw [run_add_of_continues hc, run_succ_of_endsWith m he]

/-- All `n` steps of a run answer `Continue`, or the run ends with the first that does not. -/
theorem run_cases (n : Nat) (s : State) :
    (∃ u, Continues n s u ∧ run n s = .running u) ∨
    ∃ k u, k < n ∧ Continues k s u ∧ EndsWith u (run n s) := by
  induction n generalizing s with
  | zero => exact .inl ⟨s, rfl, rfl⟩
  | succ n ih =>
    obtain ⟨t, h, ha⟩ | ⟨a, he⟩ := continues_or_endsWith s
    · rw [run_succ_of_continued n h ha]
      obtain ⟨u, hc, hrun⟩ | ⟨k, u, hk, hc, he⟩ := ih t
      · exact .inl ⟨u, ⟨t, h, ha, hc⟩, hrun⟩
      · exact .inr ⟨k + 1, u, Nat.succ_lt_succ hk, ⟨t, h, ha, hc⟩, he⟩
    · rw [run_succ_of_endsWith n he]
      exact .inr ⟨0, s, Nat.succ_pos n, rfl, he⟩

/-- A run has responded, or hung, exactly when some step within its number ends it that way. -/
theorem run_eq_iff_endsWith {n : Nat} {s : State} {a : RunAnswer} (ha : ∀ u, a ≠ .running u) :
    run n s = a ↔ ∃ k u, k < n ∧ Continues k s u ∧ EndsWith u a := by
  constructor
  · rintro rfl
    obtain ⟨u, -, hrun⟩ | hend := run_cases n s
    · exact absurd hrun (ha u)
    · exact hend
  · rintro ⟨k, u, hk, hc, he⟩
    exact run_eq_of_endsWith hk hc he

theorem endsWith_terminated_iff {u t : State} :
    EndsWith u (.terminated t) ↔ step u = .next t ∧ t.answered = some .terminated :=
  ⟨fun | .terminated _ h ha => ⟨h, ha⟩, fun ⟨h, ha⟩ => .terminated t h ha⟩

theorem endsWith_error_iff {u l : State} {e : ErrorKind} :
    EndsWith u (.error e l) ↔ step u = .fault (.error e l) :=
  ⟨fun | .error _ _ h => h, .error e l⟩

/-- Settles O47, by `run_eq_iff_endsWith` for the two responses. -/
theorem runEndsAtFirstEndingStep : Obligations.RunEndsAtFirstEndingStep := by
  refine ⟨fun n s t => ?_, fun n s l e => ?_⟩
  · rw [run_eq_iff_endsWith (by simp)]
    simp only [endsWith_terminated_iff]
  · rw [run_eq_iff_endsWith (by simp)]
    simp only [endsWith_error_iff]

/-- Settles O48: no ending step answers that the run goes on, and one that was reached stays the last. -/
theorem runResponseIsFinal : Obligations.RunResponseIsFinal := by
  refine ⟨fun n s u => ⟨fun h => ?_, fun hc => ?_⟩, fun n m s h => ?_⟩
  · obtain ⟨v, hc, hrun⟩ | ⟨k, v, -, -, he⟩ := run_cases n s
    · obtain rfl := RunAnswer.running.inj (hrun.symm.trans h)
      exact hc
    · rw [h] at he
      cases he
  · simpa [run] using run_add_of_continues hc 0
  · obtain ⟨u, -, hrun⟩ | ⟨k, u, hk, hc, he⟩ := run_cases n s
    · exact absurd hrun (h u)
    · exact run_eq_of_endsWith (Nat.lt_add_right m hk) hc he

end Sys2Proof.Machine
end
